-- ==== Sys2Proof/Word.lean ====
section
/-! DEFINITION. The word types of the CHIP-8 interpreter core (00_scope.md R7, R9): every quantity is unsigned. -/

namespace Sys2Proof

/-- A memory cell, a general register, a timer, an immediate NN (20_memory.md R60, 10_state.md R22). -/
abbrev Byte := BitVec 8

/-- An instruction word, the program counter, the address register, a stack entry (10_state.md R20). -/
abbrev Word := BitVec 16

/-- The 12-bit address immediate NNN (30_encoding.md R93). -/
abbrev Addr12 := BitVec 12

/-- The number of a general register: the fields X and Y name all sixteen (10_state.md R22). -/
abbrev Reg := Fin 16

/-- A 4-bit count: the sprite height N (30_encoding.md R93). -/
abbrev Nibble := Fin 16

/-- Register 0xF, written VF (10_state.md R23). -/
abbrev VF : Reg := 15

end Sys2Proof
end

