-- ==== Sys2Proof/Config.lean ====
section
/-! DEFINITION. What the spec leaves to a parameter (00_scope.md R8), as plain data, and the one free value: the
random byte. The values the machine runs with stand in Machine/Params.lean. -/

namespace Sys2Proof

/-- `SHIFT_SRC` (00_scope.md R8, 92_eei_decisions.md D6): the register the two shift instructions read. -/
inductive ShiftSrc where
  /-- Vx is shifted in place. -/
  | X
  /-- Vy is shifted into Vx. -/
  | Y
deriving DecidableEq, Repr

/-- `ADDI_FLAG` (00_scope.md R8, 45_index_and_memory.md R200, 92_eei_decisions.md D7): the three readings of the flag of
ADD I, Vx. -/
inductive AddiFlag where
  /-- 1 when the unbounded sum exceeds 0xFF. -/
  | sumGtFF
  /-- 1 when the low byte of I plus Vx carries. -/
  | lowByteCarry
  /-- 1 when the unbounded sum exceeds 0xFFF. -/
  | sumGtFFF
deriving DecidableEq, Repr

/-- The parameters of 00_scope.md R8 that are fixed for a run. -/
structure Params where
  /-- `GLYPH_TABLE`: the 80 bytes at 0x000 to 0x04F (20_memory.md R62). -/
  glyphTable : List Byte
  /-- `GLYPH_WRITE_PROTECT`: whether stores to 0x000 to 0x04F are refused (20_memory.md R63). -/
  glyphWriteProtect : Bool
  /-- `SHIFT_SRC` (43_alu.md R176). -/
  shiftSrc : ShiftSrc
  /-- `ADDI_FLAG` (45_index_and_memory.md R200). -/
  addiFlag : AddiFlag
deriving DecidableEq, Repr

/-- FREE VALUE (log entry 5): the random bytes, one for each RND executed, in order. The spec makes `rnd` an input that may
be any of the 256 values at every execution (42_immediate_and_random.md R163, 92_eei_decisions.md D19); with no body,
nothing can be proved about it. -/
opaque Config.rnd : Nat → Byte

end Sys2Proof
end

