-- ==== Sys2Proof/Syntax.lean ====
section
/-! DEFINITION. The instructions: one constructor for each of the 34 rows of 30_encoding.md R96 (spec/opcode_table.json),
in the table's order. The operands have the types of 30_encoding.md R93, so every term is an instruction the encoding can
spell. -/

namespace Sys2Proof

inductive Instr where
  /-- 00E0, clear the screen (46_display.md R220). -/
  | cls
  /-- 00EE, return from subroutine (41_control_flow.md R140). -/
  | ret
  /-- 1nnn, jump (41_control_flow.md R141). -/
  | jp (nnn : Addr12)
  /-- 2nnn, call subroutine (41_control_flow.md R142). -/
  | call (nnn : Addr12)
  /-- 3xnn, skip if register equals immediate (41_control_flow.md R143). -/
  | seImm (x : Reg) (nn : Byte)
  /-- 4xnn, skip if register differs from immediate (41_control_flow.md R144). -/
  | sneImm (x : Reg) (nn : Byte)
  /-- 5xy0, skip if registers equal (41_control_flow.md R145); the low nibble of the word is no operand (30_encoding.md R94). -/
  | seReg (x y : Reg)
  /-- 6xnn, load immediate (42_immediate_and_random.md R160). -/
  | ldImm (x : Reg) (nn : Byte)
  /-- 7xnn, add immediate, no flag (42_immediate_and_random.md R161). -/
  | addImm (x : Reg) (nn : Byte)
  /-- 8xy0, copy (43_alu.md R170). -/
  | ldReg (x y : Reg)
  /-- 8xy1, bitwise OR (43_alu.md R171). -/
  | orReg (x y : Reg)
  /-- 8xy2, bitwise AND (43_alu.md R172). -/
  | andReg (x y : Reg)
  /-- 8xy3, bitwise exclusive OR (43_alu.md R173). -/
  | xorReg (x y : Reg)
  /-- 8xy4, add, carry out to VF (43_alu.md R174). -/
  | addReg (x y : Reg)
  /-- 8xy5, subtract, not-borrow to VF (43_alu.md R175). -/
  | sub (x y : Reg)
  /-- 8xy6, shift right by one (43_alu.md R176); y is read only when SHIFT_SRC = Y. -/
  | shr (x y : Reg)
  /-- 8xy7, reverse subtract, not-borrow to VF (43_alu.md R177). -/
  | subn (x y : Reg)
  /-- 8xyE, shift left by one (43_alu.md R178); y is read only when SHIFT_SRC = Y. -/
  | shl (x y : Reg)
  /-- 9xy0, skip if registers differ (41_control_flow.md R146); the low nibble of the word is no operand (30_encoding.md R94). -/
  | sneReg (x y : Reg)
  /-- Annn, load the address register (42_immediate_and_random.md R162). -/
  | ldI (nnn : Addr12)
  /-- Bnnn, indexed jump (41_control_flow.md R147). -/
  | jpV0 (nnn : Addr12)
  /-- Cxnn, random byte under a mask (42_immediate_and_random.md R163). -/
  | rnd (x : Reg) (nn : Byte)
  /-- Dxyn, draw a sprite (46_display.md R221). -/
  | drw (x y : Reg) (n : Nibble)
  /-- Ex9E, skip if the key is pressed (44_keypad_and_timers.md R190). -/
  | skp (x : Reg)
  /-- ExA1, skip if the key is not pressed (44_keypad_and_timers.md R191). -/
  | sknp (x : Reg)
  /-- Fx07, read the delay timer (44_keypad_and_timers.md R192). -/
  | ldVxDt (x : Reg)
  /-- Fx0A, block until a key is pressed (44_keypad_and_timers.md R193). -/
  | ldVxK (x : Reg)
  /-- Fx15, set the delay timer (44_keypad_and_timers.md R194). -/
  | ldDtVx (x : Reg)
  /-- Fx18, set the sound timer (44_keypad_and_timers.md R195). -/
  | ldStVx (x : Reg)
  /-- Fx1E, add a register to the address register (45_index_and_memory.md R200). -/
  | addI (x : Reg)
  /-- Fx29, point I at a glyph (45_index_and_memory.md R201). -/
  | ldF (x : Reg)
  /-- Fx33, store three decimal digits (45_index_and_memory.md R202). -/
  | ldB (x : Reg)
  /-- Fx55, register dump (45_index_and_memory.md R203). -/
  | ldMemVx (x : Reg)
  /-- Fx65, register load (45_index_and_memory.md R204). -/
  | ldVxMem (x : Reg)
deriving DecidableEq, Repr

end Sys2Proof
end

