-- ==== Sys2Proof/WellFormed.lean ====
section
/-! DEFINITION. What makes an argument well formed. An instruction's operands carry their bounds in their types, so its
check holds of every term (`Instr.wellFormed_all`); the checks that can fail are those on what the host hands over: the
parameters, a program image, a key index. -/

namespace Sys2Proof

/-- The operands of an instruction as (value, number of values its field can hold), from the widths of 30_encoding.md R91. -/
def Instr.operands : Instr → List (Nat × Nat)
  | .cls | .ret => []
  | .jp nnn | .call nnn | .ldI nnn | .jpV0 nnn => [(nnn.toNat, 4096)]
  | .seImm x nn | .sneImm x nn | .ldImm x nn | .addImm x nn | .rnd x nn => [(x.val, 16), (nn.toNat, 256)]
  | .seReg x y | .sneReg x y => [(x.val, 16), (y.val, 16)]
  | .ldReg x y | .orReg x y | .andReg x y | .xorReg x y | .addReg x y | .sub x y | .shr x y | .subn x y | .shl x y =>
    [(x.val, 16), (y.val, 16)]
  | .drw x y n => [(x.val, 16), (y.val, 16), (n.val, 16)]
  | .skp x | .sknp x | .ldVxDt x | .ldVxK x | .ldDtVx x | .ldStVx x | .addI x | .ldF x | .ldB x | .ldMemVx x | .ldVxMem x =>
    [(x.val, 16)]

/-- Every operand fits its field (30_encoding.md R91, R93). -/
abbrev Instr.WellFormed (i : Instr) : Prop := ∀ o ∈ i.operands, o.1 < o.2

theorem Instr.wellFormed_all (i : Instr) : i.WellFormed := by
  cases i <;> simp [Instr.WellFormed, Instr.operands] <;> omega

/-- A parameter set is usable when its glyph table has the 80 bytes of 20_memory.md R62. -/
abbrev Params.WellFormed (p : Params) : Prop := p.glyphTable.length = 80

/-- The largest image `load` accepts: 4096 − 0x200 bytes (70_reset_and_hazards.md R282). -/
def maxImage : Nat := 3584

/-- An image that fits before the end of memory (70_reset_and_hazards.md R282). -/
abbrev ImageFits (image : List Byte) : Prop := image.length ≤ maxImage

/-- The domain of `set_key` (60_exceptions.md R257). -/
abbrev KeyIndexOk (index : Nat) : Prop := index ≤ 15

end Sys2Proof
end

