-- ==== Sys2Proof/Decode.lean ====
section
/-! DEFINITION. The instruction decoder and encoder (30_encoding.md): the six fields, the two dispatches, the table of
R96, the encoder written from the same table. -/

namespace Sys2Proof

/-! ### The six fields of a word (R91) -/

/-- `CLASS = W[15:12]`. -/
def fieldClass (w : Word) : Nat := (w.extractLsb 15 12).toNat

/-- `X = W[11:8]`. -/
def fieldX (w : Word) : Reg := ⟨(w.extractLsb 11 8).toNat, (w.extractLsb 11 8).isLt⟩

/-- `Y = W[7:4]`. -/
def fieldY (w : Word) : Reg := ⟨(w.extractLsb 7 4).toNat, (w.extractLsb 7 4).isLt⟩

/-- `N = W[3:0]`. -/
def fieldN (w : Word) : Nibble := ⟨(w.extractLsb 3 0).toNat, (w.extractLsb 3 0).isLt⟩

/-- `NN = W[7:0]`. -/
def fieldNN (w : Word) : Byte := w.extractLsb 7 0

/-- `NNN = W[11:0]`. -/
def fieldNNN (w : Word) : Addr12 := w.extractLsb 11 0

/-! ### Dispatch (R94, R95) -/

/-- Class 0x0: the key is the whole of NNN, and only 0x0E0 and 0x0EE have a handler (R95, 92_eei_decisions.md D3). -/
def decodeClass0 (w : Word) : Option Instr :=
  match (fieldNNN w).toNat with
  | 0x0E0 => some .cls
  | 0x0EE => some .ret
  | _ => none

/-- Class 0x8: the key is N (R95). -/
def decodeClass8 (w : Word) : Option Instr :=
  match (fieldN w).val with
  | 0x0 => some (.ldReg (fieldX w) (fieldY w))
  | 0x1 => some (.orReg (fieldX w) (fieldY w))
  | 0x2 => some (.andReg (fieldX w) (fieldY w))
  | 0x3 => some (.xorReg (fieldX w) (fieldY w))
  | 0x4 => some (.addReg (fieldX w) (fieldY w))
  | 0x5 => some (.sub (fieldX w) (fieldY w))
  | 0x6 => some (.shr (fieldX w) (fieldY w))
  | 0x7 => some (.subn (fieldX w) (fieldY w))
  | 0xE => some (.shl (fieldX w) (fieldY w))
  | _ => none

/-- Class 0xE: the key is NN (R95). -/
def decodeClassE (w : Word) : Option Instr :=
  match (fieldNN w).toNat with
  | 0x9E => some (.skp (fieldX w))
  | 0xA1 => some (.sknp (fieldX w))
  | _ => none

/-- Class 0xF: the key is NN (R95). -/
def decodeClassF (w : Word) : Option Instr :=
  match (fieldNN w).toNat with
  | 0x07 => some (.ldVxDt (fieldX w))
  | 0x0A => some (.ldVxK (fieldX w))
  | 0x15 => some (.ldDtVx (fieldX w))
  | 0x18 => some (.ldStVx (fieldX w))
  | 0x1E => some (.addI (fieldX w))
  | 0x29 => some (.ldF (fieldX w))
  | 0x33 => some (.ldB (fieldX w))
  | 0x55 => some (.ldMemVx (fieldX w))
  | 0x65 => some (.ldVxMem (fieldX w))
  | _ => none

/-- The instruction a word selects, `none` for the illegal words of R98. Primary dispatch on CLASS (R94). -/
def decodeWord (w : Word) : Option Instr :=
  match fieldClass w with
  | 0x0 => decodeClass0 w
  | 0x1 => some (.jp (fieldNNN w))
  | 0x2 => some (.call (fieldNNN w))
  | 0x3 => some (.seImm (fieldX w) (fieldNN w))
  | 0x4 => some (.sneImm (fieldX w) (fieldNN w))
  | 0x5 => some (.seReg (fieldX w) (fieldY w))
  | 0x6 => some (.ldImm (fieldX w) (fieldNN w))
  | 0x7 => some (.addImm (fieldX w) (fieldNN w))
  | 0x8 => decodeClass8 w
  | 0x9 => some (.sneReg (fieldX w) (fieldY w))
  | 0xA => some (.ldI (fieldNNN w))
  | 0xB => some (.jpV0 (fieldNNN w))
  | 0xC => some (.rnd (fieldX w) (fieldNN w))
  | 0xD => some (.drw (fieldX w) (fieldY w) (fieldN w))
  | 0xE => decodeClassE w
  | 0xF => decodeClassF w
  | _ => none

/-! ### Decoding bytes -/

/-- The word of two fetched bytes: the one at the lower address is the more significant (20_memory.md R64). -/
def wordOfBytes (hi lo : Byte) : Word := hi ++ lo

/-- The more significant byte of a word, which lies at the lower address (20_memory.md R64). -/
def highByte (w : Word) : Byte := w.extractLsb 15 8

/-- The less significant byte of a word. -/
def lowByte (w : Word) : Byte := w.extractLsb 7 0

/-- Why bytes are no instruction. -/
inductive DecodeReject where
  /-- Fewer than the two bytes of an instruction (30_encoding.md R90). -/
  | truncated
  /-- A word that no row of 30_encoding.md R96 matches (R98). -/
  | illegal (w : Word)
deriving DecidableEq, Repr

/-- The first instruction of a sequence of bytes and the bytes after it. Total: what is no instruction is rejected by name. -/
def decode : List Byte → Except DecodeReject (Instr × List Byte)
  | hi :: lo :: rest =>
    match decodeWord (wordOfBytes hi lo) with
    | some i => .ok (i, rest)
    | none => .error (.illegal (wordOfBytes hi lo))
  | _ => .error .truncated

/-! ### The encoder -/

/-- A word from its four nibbles, CLASS first: how 30_encoding.md R102 builds an encoding from the pattern column of R96. -/
def nibbles (c x y n : Nat) : Word := BitVec.ofNat 16 (((c * 16 + x) * 16 + y) * 16 + n)

/-- A word of format XNN (R92): a class, a register, a byte. -/
def wordXNN (c x : Nat) (nn : Byte) : Word := BitVec.ofNat 16 ((c * 16 + x) * 256 + nn.toNat)

/-- A word of format NNN (R92): a class and a 12-bit address. -/
def wordNNN (c : Nat) (nnn : Addr12) : Word := BitVec.ofNat 16 (c * 4096 + nnn.toNat)

/-- The word of an instruction, as the pattern column of 30_encoding.md R96 gives it; where the low nibble is not examined
(classes 5 and 9) the canonical 0 (R94). -/
def encode : Instr → Word
  | .cls => nibbles 0x0 0x0 0xE 0x0
  | .ret => nibbles 0x0 0x0 0xE 0xE
  | .jp nnn => wordNNN 0x1 nnn
  | .call nnn => wordNNN 0x2 nnn
  | .seImm x nn => wordXNN 0x3 x nn
  | .sneImm x nn => wordXNN 0x4 x nn
  | .seReg x y => nibbles 0x5 x y 0x0
  | .ldImm x nn => wordXNN 0x6 x nn
  | .addImm x nn => wordXNN 0x7 x nn
  | .ldReg x y => nibbles 0x8 x y 0x0
  | .orReg x y => nibbles 0x8 x y 0x1
  | .andReg x y => nibbles 0x8 x y 0x2
  | .xorReg x y => nibbles 0x8 x y 0x3
  | .addReg x y => nibbles 0x8 x y 0x4
  | .sub x y => nibbles 0x8 x y 0x5
  | .shr x y => nibbles 0x8 x y 0x6
  | .subn x y => nibbles 0x8 x y 0x7
  | .shl x y => nibbles 0x8 x y 0xE
  | .sneReg x y => nibbles 0x9 x y 0x0
  | .ldI nnn => wordNNN 0xA nnn
  | .jpV0 nnn => wordNNN 0xB nnn
  | .rnd x nn => wordXNN 0xC x nn
  | .drw x y n => nibbles 0xD x y n
  | .skp x => nibbles 0xE x 0x9 0xE
  | .sknp x => nibbles 0xE x 0xA 0x1
  | .ldVxDt x => nibbles 0xF x 0x0 0x7
  | .ldVxK x => nibbles 0xF x 0x0 0xA
  | .ldDtVx x => nibbles 0xF x 0x1 0x5
  | .ldStVx x => nibbles 0xF x 0x1 0x8
  | .addI x => nibbles 0xF x 0x1 0xE
  | .ldF x => nibbles 0xF x 0x2 0x9
  | .ldB x => nibbles 0xF x 0x3 0x3
  | .ldMemVx x => nibbles 0xF x 0x5 0x5
  | .ldVxMem x => nibbles 0xF x 0x6 0x5

/-- The two bytes of an instruction, the high byte first (20_memory.md R64, 30_encoding.md R102). -/
def encodeBytes (i : Instr) : List Byte := [highByte (encode i), lowByte (encode i)]

/-! ### The opcode table of R96 as data -/

/-- One row of 30_encoding.md R96: a word W selects it when W and `mask` give `pattern` (the column "match"). -/
structure OpcodeRow where
  mnemonic : String
  pattern : Word
  mask : Word
deriving DecidableEq, Repr

/-- A word selects a row. -/
abbrev OpcodeRow.Selects (r : OpcodeRow) (w : Word) : Prop := w &&& r.mask = r.pattern

/-- The 34 rows of 30_encoding.md R96, with the mnemonics of spec/opcode_table.json. -/
def opcodeTable : List OpcodeRow :=
  [⟨"CLS", 0x00E0, 0xFFFF⟩, ⟨"RET", 0x00EE, 0xFFFF⟩, ⟨"JP", 0x1000, 0xF000⟩, ⟨"CALL", 0x2000, 0xF000⟩,
   ⟨"SE_IMM", 0x3000, 0xF000⟩, ⟨"SNE_IMM", 0x4000, 0xF000⟩, ⟨"SE_REG", 0x5000, 0xF000⟩, ⟨"LD_IMM", 0x6000, 0xF000⟩,
   ⟨"ADD_IMM", 0x7000, 0xF000⟩] ++
  [⟨"LD_REG", 0x8000, 0xF00F⟩, ⟨"OR", 0x8001, 0xF00F⟩, ⟨"AND", 0x8002, 0xF00F⟩, ⟨"XOR", 0x8003, 0xF00F⟩,
   ⟨"ADD_REG", 0x8004, 0xF00F⟩, ⟨"SUB", 0x8005, 0xF00F⟩, ⟨"SHR", 0x8006, 0xF00F⟩, ⟨"SUBN", 0x8007, 0xF00F⟩,
   ⟨"SHL", 0x800E, 0xF00F⟩] ++
  [⟨"SNE_REG", 0x9000, 0xF000⟩, ⟨"LD_I", 0xA000, 0xF000⟩, ⟨"JP_V0", 0xB000, 0xF000⟩, ⟨"RND", 0xC000, 0xF000⟩,
   ⟨"DRW", 0xD000, 0xF000⟩, ⟨"SKP", 0xE09E, 0xF0FF⟩, ⟨"SKNP", 0xE0A1, 0xF0FF⟩] ++
  [⟨"LD_VX_DT", 0xF007, 0xF0FF⟩, ⟨"LD_VX_K", 0xF00A, 0xF0FF⟩, ⟨"LD_DT_VX", 0xF015, 0xF0FF⟩,
   ⟨"LD_ST_VX", 0xF018, 0xF0FF⟩, ⟨"ADD_I", 0xF01E, 0xF0FF⟩, ⟨"LD_F", 0xF029, 0xF0FF⟩, ⟨"LD_B", 0xF033, 0xF0FF⟩,
   ⟨"LD_MEM_VX", 0xF055, 0xF0FF⟩, ⟨"LD_VX_MEM", 0xF065, 0xF0FF⟩]

/-- The place of an instruction's row in `opcodeTable` (R96's number less one). -/
def Instr.rowIndex : Instr → Nat
  | .cls => 0 | .ret => 1 | .jp _ => 2 | .call _ => 3 | .seImm _ _ => 4 | .sneImm _ _ => 5 | .seReg _ _ => 6
  | .ldImm _ _ => 7 | .addImm _ _ => 8 | .ldReg _ _ => 9 | .orReg _ _ => 10 | .andReg _ _ => 11 | .xorReg _ _ => 12
  | .addReg _ _ => 13 | .sub _ _ => 14 | .shr _ _ => 15 | .subn _ _ => 16 | .shl _ _ => 17 | .sneReg _ _ => 18
  | .ldI _ => 19 | .jpV0 _ => 20 | .rnd _ _ => 21 | .drw _ _ _ => 22 | .skp _ => 23 | .sknp _ => 24 | .ldVxDt _ => 25
  | .ldVxK _ => 26 | .ldDtVx _ => 27 | .ldStVx _ => 28 | .addI _ => 29 | .ldF _ => 30 | .ldB _ => 31 | .ldMemVx _ => 32
  | .ldVxMem _ => 33

/-! ### The host's entry -/

/-- The instruction read from the bits `w`, numbered as spec/opcode_table.json numbers them: the table's number IS the
16-bit word, whose high byte the hardware stores at the lower address; bits above `nbits` are 0. -/
def decodeTableWord (nbits w : Nat) : Option Instr :=
  let word : Word := BitVec.ofNat 16 (w % 2 ^ nbits)
  match decode [highByte word, lowByte word] with
  | .ok (i, _) => some i
  | .error _ => none

end Sys2Proof
end

