-- ==== Sys2Proof/Machine/Params.lean ====
section
/-! DEFINITION. The values of the parameters of 00_scope.md R8 that this machine runs with: the spec's defaults. -/

namespace Sys2Proof.Machine

/-- The default `GLYPH_TABLE` of 20_memory.md R62, digit by digit (log entry 1). -/
def glyphTable : List Byte :=
  [0xF0, 0x90, 0x90, 0x90, 0xF0,  0x20, 0x60, 0x20, 0x20, 0x70,  0xF0, 0x10, 0xF0, 0x80, 0xF0,  0xF0, 0x10, 0xF0, 0x10, 0xF0] ++
  [0x90, 0x90, 0xF0, 0x10, 0x10,  0xF0, 0x80, 0xF0, 0x10, 0xF0,  0xF0, 0x80, 0xF0, 0x90, 0xF0,  0xF0, 0x10, 0x20, 0x40, 0x40] ++
  [0xF0, 0x90, 0xF0, 0x90, 0xF0,  0xF0, 0x90, 0xF0, 0x10, 0xF0,  0xF0, 0x90, 0xF0, 0x90, 0x90,  0xE0, 0x90, 0xE0, 0x90, 0xE0] ++
  [0xF0, 0x80, 0x80, 0x80, 0xF0,  0xE0, 0x90, 0x90, 0x90, 0xE0,  0xF0, 0x80, 0xF0, 0x80, 0xF0,  0xF0, 0x80, 0xF0, 0x80, 0x80]

/-- The parameters at the defaults of 00_scope.md R8 (log entries 1 to 4). -/
def params : Params where
  glyphTable := glyphTable
  glyphWriteProtect := false
  shiftSrc := .X
  addiFlag := .sumGtFF

/-- The contents of a cell after reset: the glyph table at 0x000 to 0x04F and zero elsewhere (10_state.md R33). This is what
an address that the memory list does not name reads as. -/
def resetByte (a : Nat) : Byte := params.glyphTable.getD a 0

end Sys2Proof.Machine
end

