-- ==== Sys2Proof/Machine/State.lean ====
section
/-! DEFINITION. The machine state (10_state.md R20) as plain data, the errors a step can report (60_exceptions.md R241),
the refusals, and the state after reset (10_state.md R33). -/

namespace Sys2Proof.Machine

/-- The errors of 60_exceptions.md R241 with their recorded information. An error is the OUTCOME of a transaction and
changes no state element (R250): there is no handler, vector or saved-state register to show as a next state (R251).
Each is SAFE: the machine the spec describes stops its step there too. -/
inductive Fault where
  /-- Code 1. Raised by the host transaction `load` when the image has more than 3584 bytes (70_reset_and_hazards.md R283).
  No step raises it. -/
  | loadError (len : Nat)
  /-- Code 2. Raised by a step with pc > 0xFFE, before anything is read (20_memory.md R69, 60_exceptions.md R243). -/
  | fetchError (pc : Word)
  /-- Code 3. Raised by a step whose word no row of 30_encoding.md R96 matches (R98, 60_exceptions.md R244). -/
  | decodeError (pc w : Word)
  /-- Code 4. Raised by CALL when sp = 16 (60_exceptions.md R245). -/
  | stackOverflow (pc : Word)
  /-- Code 5. Raised by RET when sp = 0 (60_exceptions.md R246). -/
  | stackUnderflow (pc : Word)
  /-- Code 6. Raised by DRW, LD B, LD [I] and LD Vx, [I] when the highest address is above 0xFFF, recorded as an unbounded
  integer (60_exceptions.md R247); under GLYPH_WRITE_PROTECT also by the two stores with I ≤ 0x04F, recording I. -/
  | addressError (pc w : Word) (addr : Nat)
  /-- Code 7. Raised by SKP and SKNP when the register is above 0xF (60_exceptions.md R248). -/
  | keyIndexError (pc : Word) (value : Byte)
deriving DecidableEq, Repr

/-- What the model rejects without giving it a meaning. -/
inductive Refusal where
  /-- An arm of `exec` with no meaning yet; SAFE. No arm of this model answers it. -/
  | notModelled (mnemonic : String)
  /-- `load` elsewhere than once after a reset and before the first step: outside the specified behaviour
  (70_reset_and_hazards.md R284). Raised by `System.apply` only; SAFE. -/
  | loadOutOfPlace
  /-- `set_key` with an index above 15: outside the operation's domain (60_exceptions.md R257). Raised by `System.apply`
  only; SAFE. -/
  | keyIndexOutsideDomain (index : Nat)
deriving DecidableEq, Repr

/-- Memory as the list of the cells that differ from their reset contents, addresses strictly rising (`Memory.wf`). -/
abbrev Memory := List Host.Cell

/-- The pixel buffer `fb[0]` … `fb[2047]` (10_state.md R31). -/
abbrev Pixels := Vector Bool 2048

/-- The machine state: the ten elements of 10_state.md R20, and the model's own counter `draws`. -/
structure State where
  /-- Memory, cells 0x000 to 0xFFF (20_memory.md R60). -/
  mem : Memory
  /-- `x[0]` … `x[15]` (10_state.md R22). -/
  regs : Vector Byte 16
  /-- The address register `I`; all 16 bits are held (10_state.md R25). -/
  I : Word
  /-- The program counter (10_state.md R28). -/
  pc : Word
  /-- `stack[0]` … `stack[15]`; each entry in use is the address of a CALL (10_state.md R26). -/
  stack : Vector Word 16
  /-- The number of stack entries in use, 0 to 16 (10_state.md R26). -/
  sp : Fin 17
  /-- The delay timer `DT` (10_state.md R27). -/
  dt : Byte
  /-- The sound timer `ST` (10_state.md R27). -/
  st : Byte
  /-- `key[k]`: whether key k is pressed (10_state.md R30). -/
  key : Vector Bool 16
  /-- The pixel buffer (10_state.md R31). -/
  fb : Pixels
  /-- THE MODEL'S OWN (log entry 5): how many random bytes have been used; no element of the spec's state. -/
  draws : Nat
deriving DecidableEq, Repr

/-- The state after `reset()` (10_state.md R33, 70_reset_and_hazards.md R280). No cell is listed: every cell holds its
reset contents. -/
def State.reset : State where
  mem := []
  regs := Vector.replicate 16 0
  I := 0
  pc := 0x0200
  stack := Vector.replicate 16 0
  sp := 0
  dt := 0
  st := 0
  key := Vector.replicate 16 false
  fb := Vector.replicate 2048 false
  draws := 0

/-- The answer of one instruction or one step. -/
abbrev StepResult := Host.Outcome State Fault Refusal

end Sys2Proof.Machine
end

