-- ==== Sys2Proof/Machine/Ops.lean ====
section
/-! DEFINITION. The named operations over the state: memory, registers, the program counter, the call stack, the keypad,
raising an error, and fetching. -/

namespace Sys2Proof.Machine

/-! ### Memory (20_memory.md) -/

/-- The canonical form: addresses strictly rising, inside the address space, and no cell that holds its reset contents. -/
abbrev Memory.wf (m : Memory) : Prop :=
  m.Pairwise (fun c d => c.1 < d.1) ∧ ∀ c ∈ m, c.1 < 4096 ∧ c.2 ≠ resetByte c.1

/-- `MemRead(a, 1)` (20_memory.md R67). -/
def Memory.read : Memory → Nat → Byte
  | [], a => resetByte a
  | (b, v) :: m, a => if a = b then v else Memory.read m a

/-- The cells without the one at `a`. -/
def Memory.erase (m : Memory) (a : Nat) : Memory := m.filter (fun c => c.1 ≠ a)

/-- A new cell at its place in the rising order. -/
def Memory.insert : Memory → Nat → Byte → Memory
  | [], a, v => [(a, v)]
  | (b, w) :: m, a, v => if a < b then (a, v) :: (b, w) :: m else (b, w) :: Memory.insert m a v

/-- `MemWrite(a, 1, v)` (20_memory.md R67): writing a cell's reset contents leaves it unlisted. -/
def Memory.write (m : Memory) (a : Nat) (v : Byte) : Memory :=
  if v = resetByte a then m.erase a else (m.erase a).insert a v

/-- Successive bytes stored from address `a` upwards (20_memory.md R70: increasing address order). -/
def Memory.writeList (m : Memory) (a : Nat) : List Byte → Memory
  | [] => m
  | v :: vs => Memory.writeList (m.write a v) (a + 1) vs

/-- The `n` bytes from address `a` upwards. -/
def Memory.readList (m : Memory) (a : Nat) : Nat → List Byte
  | 0 => []
  | n + 1 => m.read a :: Memory.readList m (a + 1) n

/-! ### General registers (10_state.md R22): none is hardwired, banked or aliased -/

/-- `x[r]`. -/
def State.reg (s : State) (r : Reg) : Byte := s.regs[r.val]

/-- `x[r] <- v`. -/
def State.setReg (s : State) (r : Reg) (v : Byte) : State := { s with regs := s.regs.set r.val v }

/-- Write the flag register last: VF becomes 1 or 0 (10_state.md R24, 43_alu.md R179). -/
def State.setFlag (s : State) (f : Bool) : State := s.setReg VF (if f then 1 else 0)

/-- `x[0]` … `x[n-1]` as a list of bytes. -/
def State.firstRegs (s : State) (n : Nat) : List Byte := s.regs.toList.take n

/-- `x[k] <- MemRead(base + k, 1)` for k = 0, 1, …, n − 1. -/
def loadRegs (m : Memory) (base : Nat) : Nat → Vector Byte 16 → Vector Byte 16
  | 0, v => v
  | n + 1, v => (loadRegs m base n v).setIfInBounds n (m.read (base + n))

/-! ### The program counter (40_execution_cycle.md R124) -/

/-- `pc <- pc + 2`. -/
def State.advance (s : State) : State := { s with pc := s.pc + 2 }

/-- `pc <- pc + 4` when the condition holds, else `pc + 2`. -/
def State.skipIf (s : State) (c : Bool) : State := { s with pc := if c then s.pc + 4 else s.pc + 2 }

/-- `pc <- target`. -/
def State.jump (s : State) (target : Word) : State := { s with pc := target }

/-! ### The call stack (10_state.md R26) -/

/-- Store into `stack[sp]`, then increment sp; `none` when 16 entries are in use. -/
def State.push (s : State) (w : Word) : Option State :=
  if h : s.sp.val < 16 then
    some { s with stack := s.stack.set s.sp.val w, sp := ⟨s.sp.val + 1, by omega⟩ }
  else none

/-- Decrement sp, then read `stack[sp]`, leaving the slot; `none` when the stack is empty. -/
def State.pop (s : State) : Option (Word × State) :=
  if h : 0 < s.sp.val then
    some (s.stack[s.sp.val - 1]'(by omega), { s with sp := ⟨s.sp.val - 1, by omega⟩ })
  else none

/-! ### The keypad (10_state.md R30) -/

/-- `key[k]`. -/
def State.keyDown (s : State) (k : Fin 16) : Bool := s.key[k.val]

/-- `key[k] <- b`. -/
def State.setKeyState (s : State) (k : Fin 16) (b : Bool) : State := { s with key := s.key.set k.val b }

/-- The smallest index of a pressed key (44_keypad_and_timers.md R193). -/
def State.firstPressed (s : State) : Option (Fin 16) := (List.finRange 16).find? (fun k => s.keyDown k)

/-! ### The pixel buffer (10_state.md R31, 46_display.md R222) -/

/-- `cy*64 + cx` after the wrap modulo 64 and 32 (46_display.md R221). -/
def pixelIndex (cx cy : Nat) : Fin 2048 := ⟨cy % 32 * 64 + cx % 64, by omega⟩

/-- The pixel at column `cx` and row `cy`. -/
def Pixels.at (fb : Pixels) (cx cy : Nat) : Bool := fb[(pixelIndex cx cy).val]

/-! ### Errors (60_exceptions.md R250) -/

/-- Error entry: the step ends with the error and its record as its outcome. No state element changes, pc included: the
outcome carries no state, and whoever drives the machine keeps the state it had (`System.apply`). -/
def raise (f : Fault) : StepResult := .fault f

/-- The numeric code of an error (60_exceptions.md R241); 0 is the success. -/
def Fault.code : Fault → Nat
  | .loadError _ => 1
  | .fetchError _ => 2
  | .decodeError _ _ => 3
  | .stackOverflow _ => 4
  | .stackUnderflow _ => 5
  | .addressError _ _ _ => 6
  | .keyIndexError _ _ => 7

/-! ### Fetch (40_execution_cycle.md R121) -/

/-- `W = MemRead(pc, 2)`: big-endian (20_memory.md R64), from memory as it is at the start of the step (R74). -/
def State.fetchWord (s : State) : Word := wordOfBytes (s.mem.read s.pc.toNat) (s.mem.read (s.pc.toNat + 1))

/-- Fetch and decode with the order of checks of 40_execution_cycle.md R127: FetchError, then DecodeError. -/
def fetchDecode (s : State) : Except Fault Instr :=
  if 0xFFE < s.pc.toNat then .error (.fetchError s.pc)
  else
    match decodeWord s.fetchWord with
    | some i => .ok i
    | none => .error (.decodeError s.pc s.fetchWord)

/-- The word `w` stored where the next fetch reads it, its high byte at pc. A pc above 0xFFE can fetch nothing and is first
moved to the load address 0x200 (log entry 28). -/
def State.placeWord (s : State) (w : Word) : State :=
  let s := if 0xFFE < s.pc.toNat then { s with pc := 0x0200 } else s
  { s with mem := (s.mem.write s.pc.toNat (highByte w)).write (s.pc.toNat + 1) (lowByte w) }

end Sys2Proof.Machine
end

