-- ==== Sys2Proof/Machine/Operands.lean ====
section
/-! DEFINITION. The operand forms: the register a shift reads, widened addresses, the address register plus an offset with
its bounds check, the glyph address, the decimal digits, the bits of a sprite row. -/

namespace Sys2Proof.Machine

/-- `zext_16` of the immediate NNN (30_encoding.md R93). -/
def zextAddr (nnn : Addr12) : Word := nnn.zeroExtend 16

/-- `zext_16` of a byte (00_scope.md R9). -/
def zextByte (v : Byte) : Word := v.zeroExtend 16

/-- The register the shift instructions read: X or Y by SHIFT_SRC (43_alu.md R176). -/
def shiftOperand (src : ShiftSrc) (x y : Reg) (s : State) : Byte :=
  match src with
  | .X => s.reg x
  | .Y => s.reg y

/-- The effective address `I + k`, an unbounded integer: not reduced modulo anything (20_memory.md R68). -/
def State.effAddr (s : State) (k : Nat) : Nat := s.I.toNat + k

/-- The check before any access: the highest address `I + kmax` must be a memory address (20_memory.md R68,
45_index_and_memory.md R205). `w` is the instruction word, recorded by the error. -/
def accessError (w : Word) (kmax : Nat) (s : State) : Option Fault :=
  if 0xFFF < s.effAddr kmax then some (.addressError s.pc w (s.effAddr kmax)) else none

/-- The check of a store: bounds, and with GLYPH_WRITE_PROTECT also the glyph region (20_memory.md R63,
45_index_and_memory.md R205). The two never fail together (60_exceptions.md R249). -/
def storeError (protect : Bool) (w : Word) (kmax : Nat) (s : State) : Option Fault :=
  match accessError w kmax s with
  | some f => some f
  | none => if protect && s.I.toNat ≤ 0x04F then some (.addressError s.pc w s.I.toNat) else none

/-- `5 * x[X][3:0]`: the address of the glyph of the low nibble (45_index_and_memory.md R201; 90_conflicts.md C3). -/
def glyphAddress (v : Byte) : Word := BitVec.ofNat 16 (5 * (v.toNat % 16))

/-- Hundreds, tens, ones of a byte, one digit a byte (45_index_and_memory.md R202). -/
def bcdDigits (v : Byte) : List Byte :=
  [BitVec.ofNat 8 (v.toNat / 100), BitVec.ofNat 8 (v.toNat / 10 % 10), BitVec.ofNat 8 (v.toNat % 10)]

/-- Column `col` (0 to 7) of a sprite row: bit `7 - col`, the most significant bit first (46_display.md R222). -/
def spriteBit (b : Byte) (col : Nat) : Bool := b.getLsbD (7 - col)

/-- The key a register value names; `none` above 0xF (44_keypad_and_timers.md R196). -/
def keyIndex (v : Byte) : Option (Fin 16) := if h : v.toNat < 16 then some ⟨v.toNat, h⟩ else none

end Sys2Proof.Machine
end

