-- ==== Sys2Proof/Machine/Flags.lean ====
section
/-! DEFINITION. The results and flags of the flag-writing instructions (10_state.md R24, 43_alu.md R180): operands as
unsigned integers, the exact result, then the result narrowed and the flag read off. -/

namespace Sys2Proof.Machine

/-- Sum modulo 256 and the carry out of bit 7 (43_alu.md R174). -/
def addCarry (a b : Byte) : Byte × Bool :=
  let s := a.toNat + b.toNat
  (BitVec.ofNat 8 s, decide (255 < s))

/-- `a - b` modulo 256, and true when no borrow occurred, i.e. a ≥ b (43_alu.md R175). -/
def subNoBorrow (a b : Byte) : Byte × Bool :=
  let d : Int := (a.toNat : Int) - b.toNat
  (BitVec.ofInt 8 d, decide (0 ≤ d))

/-- Half, rounded down, and the bit shifted out (43_alu.md R176). -/
def shiftRight (a : Byte) : Byte × Bool := (BitVec.ofNat 8 (a.toNat / 2), a.getLsbD 0)

/-- Twice, modulo 256, and the bit shifted out (43_alu.md R178). -/
def shiftLeft (a : Byte) : Byte × Bool := (BitVec.ofNat 8 (a.toNat * 2), a.getLsbD 7)

/-- `ADDI_FLAG(I, Vx)` under each of its three readings (45_index_and_memory.md R200). -/
def addiFlag (rule : AddiFlag) (i : Word) (v : Byte) : Bool :=
  match rule with
  | .sumGtFF => decide (0xFF < i.toNat + v.toNat)
  | .lowByteCarry => decide (0xFF < i.toNat % 256 + v.toNat)
  | .sumGtFFF => decide (0xFFF < i.toNat + v.toNat)

/-- Write a result and then its flag: the result to `x[X]` first, the flag to VF last (43_alu.md R179), and advance. -/
def State.writeFlagged (s : State) (x : Reg) (r : Byte × Bool) : State := ((s.setReg x r.1).setFlag r.2).advance

end Sys2Proof.Machine
end

