-- ==== Sys2Proof/Machine/Alu.lean ====
section
/-! DEFINITION. The register-register ALU group (43_alu.md). Operands are read, then the result and the flag are computed
from them, then the result is written, last the flag (R179). -/

namespace Sys2Proof.Machine

/-- LD Vx, Vy, 8xy0 (R170). -/
def execLdReg (x y : Reg) (s : State) : StepResult := .next (s.setReg x (s.reg y)).advance

/-- OR Vx, Vy, 8xy1 (R171): VF is not written as a flag. -/
def execOrReg (x y : Reg) (s : State) : StepResult := .next (s.setReg x (s.reg x ||| s.reg y)).advance

/-- AND Vx, Vy, 8xy2 (R172): VF is not written as a flag. -/
def execAndReg (x y : Reg) (s : State) : StepResult := .next (s.setReg x (s.reg x &&& s.reg y)).advance

/-- XOR Vx, Vy, 8xy3 (R173): VF is not written as a flag. -/
def execXorReg (x y : Reg) (s : State) : StepResult := .next (s.setReg x (s.reg x ^^^ s.reg y)).advance

/-- ADD Vx, Vy, 8xy4 (R174): no carry in. -/
def execAddReg (x y : Reg) (s : State) : StepResult := .next (s.writeFlagged x (addCarry (s.reg x) (s.reg y)))

/-- SUB Vx, Vy, 8xy5 (R175). -/
def execSub (x y : Reg) (s : State) : StepResult := .next (s.writeFlagged x (subNoBorrow (s.reg x) (s.reg y)))

/-- SUBN Vx, Vy, 8xy7 (R177): minuend Vy, subtrahend Vx. -/
def execSubn (x y : Reg) (s : State) : StepResult := .next (s.writeFlagged x (subNoBorrow (s.reg y) (s.reg x)))

/-- SHR under either value of SHIFT_SRC (R176). -/
def shrWith (src : ShiftSrc) (x y : Reg) (s : State) : State := s.writeFlagged x (shiftRight (shiftOperand src x y s))

/-- SHR Vx, 8xy6 (R176), with the machine's SHIFT_SRC (log entry 2). -/
def execShr (x y : Reg) (s : State) : StepResult := .next (shrWith params.shiftSrc x y s)

/-- SHL under either value of SHIFT_SRC (R178). -/
def shlWith (src : ShiftSrc) (x y : Reg) (s : State) : State := s.writeFlagged x (shiftLeft (shiftOperand src x y s))

/-- SHL Vx, 8xyE (R178), with the machine's SHIFT_SRC (log entry 2). -/
def execShl (x y : Reg) (s : State) : StepResult := .next (shlWith params.shiftSrc x y s)

end Sys2Proof.Machine
end

