-- ==== Sys2Proof/Machine/Control.lean ====
section
/-! DEFINITION. The control-flow instructions (41_control_flow.md). -/

namespace Sys2Proof.Machine

/-- RET, 00EE (R140): the popped address plus 2, with no further advance (90_conflicts.md C6). -/
def execRet (s : State) : StepResult :=
  match s.pop with
  | none => raise (.stackUnderflow s.pc)
  | some (w, t) => .next (t.jump (w + 2))

/-- JP nnn, 1nnn (R141). -/
def execJp (nnn : Addr12) (s : State) : StepResult := .next (s.jump (zextAddr nnn))

/-- CALL nnn, 2nnn (R142): the entry pushed is the address of this CALL (90_conflicts.md C1). -/
def execCall (nnn : Addr12) (s : State) : StepResult :=
  match s.push s.pc with
  | none => raise (.stackOverflow s.pc)
  | some t => .next (t.jump (zextAddr nnn))

/-- SE Vx, nn, 3xnn (R143). -/
def execSeImm (x : Reg) (nn : Byte) (s : State) : StepResult := .next (s.skipIf (s.reg x == nn))

/-- SNE Vx, nn, 4xnn (R144). -/
def execSneImm (x : Reg) (nn : Byte) (s : State) : StepResult := .next (s.skipIf (s.reg x != nn))

/-- SE Vx, Vy, 5xy0 (R145). -/
def execSeReg (x y : Reg) (s : State) : StepResult := .next (s.skipIf (s.reg x == s.reg y))

/-- SNE Vx, Vy, 9xy0 (R146). -/
def execSneReg (x y : Reg) (s : State) : StepResult := .next (s.skipIf (s.reg x != s.reg y))

/-- JP V0, nnn, Bnnn (R147): the 16-bit sum, not masked to 12 bits. -/
def execJpV0 (nnn : Addr12) (s : State) : StepResult := .next (s.jump (zextAddr nnn + zextByte (s.reg 0)))

end Sys2Proof.Machine
end

