-- ==== Sys2Proof/Machine/Display.lean ====
section
/-! DEFINITION. The display instructions (46_display.md): clear screen, and the sprite exclusive-or engine with collision
detection. -/

namespace Sys2Proof.Machine

/-- What a draw carries along: the pixels and the collision accumulated so far. -/
abbrev Drawing := Pixels × Bool

/-- One set sprite bit: note whether its pixel was set, then flip it (46_display.md R221). The wrap modulo 64 and 32 is
per pixel. -/
def drawPixel (ox oy row col : Nat) (d : Drawing) : Drawing :=
  let i := pixelIndex (ox + col) (oy + row)
  (d.1.set i.val (!d.1[i.val]), d.2 || d.1[i.val])

/-- One sprite row: its set bits among the columns `col`, `col + 1`, … of the list. -/
def drawColumns (ox oy row : Nat) (b : Byte) : List Nat → Drawing → Drawing
  | [], d => d
  | col :: cols, d => drawColumns ox oy row b cols (if spriteBit b col then drawPixel ox oy row col d else d)

/-- The sprite rows from number `row` on, each over the columns 0 to 7. -/
def drawRows (ox oy : Nat) : List Byte → Nat → Drawing → Drawing
  | [], _, d => d
  | b :: bs, row, d => drawRows ox oy bs (row + 1) (drawColumns ox oy row b [0, 1, 2, 3, 4, 5, 6, 7] d)

/-- The whole sprite, with no collision before its first row. -/
def drawSprite (ox oy : Nat) (rows : List Byte) (fb : Pixels) : Drawing := drawRows ox oy rows 0 (fb, false)

/-- CLS, 00E0 (46_display.md R220). -/
def execCls (s : State) : StepResult := .next { s with fb := Vector.replicate 2048 false }.advance

/-- The bounds check of DRW, made only when it reads memory, i.e. N > 0 (46_display.md R221). -/
def drawError (w : Word) (n : Nibble) (s : State) : Option Fault :=
  if n.val = 0 then none else accessError w (n.val - 1) s

/-- DRW Vx, Vy, n, Dxyn (46_display.md R221). Both coordinates are read before any write; VF is written once, after all
rows. -/
def execDrw (x y : Reg) (n : Nibble) (s : State) : StepResult :=
  match drawError (encode (.drw x y n)) n s with
  | some f => raise f
  | none =>
    let d := drawSprite ((s.reg x).toNat % 64) ((s.reg y).toNat % 32) (s.mem.readList s.I.toNat n.val) s.fb
    .next (({ s with fb := d.1 }.setFlag d.2).advance)

end Sys2Proof.Machine
end

