-- ==== Sys2Proof/Machine/Immediate.lean ====
section
/-! DEFINITION. Immediate loads, immediate add, address load, random (42_immediate_and_random.md). -/

namespace Sys2Proof.Machine

/-- LD Vx, nn, 6xnn (R160). -/
def execLdImm (x : Reg) (nn : Byte) (s : State) : StepResult := .next (s.setReg x nn).advance

/-- ADD Vx, nn, 7xnn (R161): modulo 256, the carry discarded, VF not written as a flag. -/
def execAddImm (x : Reg) (nn : Byte) (s : State) : StepResult := .next (s.setReg x (addCarry (s.reg x) nn).1).advance

/-- LD I, nnn, Annn (R162). -/
def execLdI (nnn : Addr12) (s : State) : StepResult := .next { s with I := zextAddr nnn }.advance

/-- RND with its random byte as an input, as the spec has it (R163). -/
def rndWith (r : Byte) (x : Reg) (nn : Byte) (s : State) : State := (s.setReg x (r &&& nn)).advance

/-- RND Vx, nn, Cxnn (R163): the byte is the next of the free stream, which only this instruction uses (log entry 5). -/
def execRnd (x : Reg) (nn : Byte) (s : State) : StepResult :=
  .next (rndWith (Config.rnd s.draws) x nn { s with draws := s.draws + 1 })

end Sys2Proof.Machine
end

