-- ==== Sys2Proof/Machine/IndexMemory.lean ====
section
/-! DEFINITION. The address-register and memory instructions (45_index_and_memory.md). No memory instruction changes I
(R205); every check precedes every access. -/

namespace Sys2Proof.Machine

/-- ADD I, Vx under any reading of ADDI_FLAG (R200): I wraps modulo 65536, the flag is written last. -/
def addIWith (rule : AddiFlag) (x : Reg) (s : State) : State :=
  ({ s with I := BitVec.ofNat 16 (s.I.toNat + (s.reg x).toNat) }.setFlag (addiFlag rule s.I (s.reg x))).advance

/-- ADD I, Vx, Fx1E (R200), with the machine's ADDI_FLAG (log entry 3). -/
def execAddI (x : Reg) (s : State) : StepResult := .next (addIWith params.addiFlag x s)

/-- LD F, Vx, Fx29 (R201). -/
def execLdF (x : Reg) (s : State) : StepResult := .next { s with I := glyphAddress (s.reg x) }.advance

/-- Bytes stored from I upwards, and pc advanced: the effect of the two stores. -/
def State.storeAtI (s : State) (bytes : List Byte) : State :=
  { s with mem := s.mem.writeList s.I.toNat bytes }.advance

/-- LD B, Vx under either value of GLYPH_WRITE_PROTECT (R202). -/
def ldBWith (protect : Bool) (x : Reg) (s : State) : StepResult :=
  match storeError protect (encode (.ldB x)) 2 s with
  | some f => raise f
  | none => .next (s.storeAtI (bcdDigits (s.reg x)))

/-- LD B, Vx, Fx33 (R202), with the machine's GLYPH_WRITE_PROTECT (log entry 4). -/
def execLdB (x : Reg) (s : State) : StepResult := ldBWith params.glyphWriteProtect x s

/-- LD [I], Vx under either value of GLYPH_WRITE_PROTECT (R203): x[0] to x[X], inclusive. -/
def ldMemVxWith (protect : Bool) (x : Reg) (s : State) : StepResult :=
  match storeError protect (encode (.ldMemVx x)) x.val s with
  | some f => raise f
  | none => .next (s.storeAtI (s.firstRegs (x.val + 1)))

/-- LD [I], Vx, Fx55 (R203), with the machine's GLYPH_WRITE_PROTECT (log entry 4). -/
def execLdMemVx (x : Reg) (s : State) : StepResult := ldMemVxWith params.glyphWriteProtect x s

/-- LD Vx, [I], Fx65 (R204): x[0] to x[X], inclusive. -/
def execLdVxMem (x : Reg) (s : State) : StepResult :=
  match accessError (encode (.ldVxMem x)) x.val s with
  | some f => raise f
  | none => .next { s with regs := loadRegs s.mem s.I.toNat (x.val + 1) s.regs }.advance

end Sys2Proof.Machine
end

