-- ==== Sys2Proof/Machine/Keypad.lean ====
section
/-! DEFINITION. The keypad and timer instructions (44_keypad_and_timers.md). -/

namespace Sys2Proof.Machine

/-- SKP Vx, Ex9E (R190); a value above 0xF names no key (R196). -/
def execSkp (x : Reg) (s : State) : StepResult :=
  match keyIndex (s.reg x) with
  | none => raise (.keyIndexError s.pc (s.reg x))
  | some k => .next (s.skipIf (s.keyDown k))

/-- SKNP Vx, ExA1 (R191); a value above 0xF names no key (R196). -/
def execSknp (x : Reg) (s : State) : StepResult :=
  match keyIndex (s.reg x) with
  | none => raise (.keyIndexError s.pc (s.reg x))
  | some k => .next (s.skipIf (!s.keyDown k))

/-- LD Vx, DT, Fx07 (R192). -/
def execLdVxDt (x : Reg) (s : State) : StepResult := .next (s.setReg x s.dt).advance

/-- LD Vx, K, Fx0A (R193). With no key pressed the step succeeds and changes nothing: the stall (90_conflicts.md C4).
Otherwise the lowest pressed key is stored and cleared (90_conflicts.md C2). -/
def execLdVxK (x : Reg) (s : State) : StepResult :=
  match s.firstPressed with
  | none => .next s
  | some k => .next ((s.setReg x (BitVec.ofNat 8 k.val)).setKeyState k false).advance

/-- LD DT, Vx, Fx15 (R194). -/
def execLdDtVx (x : Reg) (s : State) : StepResult := .next { s with dt := s.reg x }.advance

/-- LD ST, Vx, Fx18 (R195). -/
def execLdStVx (x : Reg) (s : State) : StepResult := .next { s with st := s.reg x }.advance

end Sys2Proof.Machine
end

