-- ==== Sys2Proof/Machine/Step.lean ====
section
/-! DEFINITION. One step of the engine (40_execution_cycle.md R120), and the host's way to place one instruction. -/

namespace Sys2Proof.Machine

/-- `step()`: fetch, decode, dispatch, execute. The pc update is part of each instruction's meaning (R123, R124). -/
def step (s : State) : Host.Outcome State Fault Refusal :=
  match fetchDecode s with
  | .error f => raise f
  | .ok i => exec i s

/-- The state with the instruction of bits `w` (numbered as spec/opcode_table.json numbers them) where step fetches next. -/
def State.withFetchWord (s : State) (nbits w : Nat) : State := s.placeWord (BitVec.ofNat 16 (w % 2 ^ nbits))

end Sys2Proof.Machine
end

