-- ==== Sys2Proof/Machine/Variants.lean ====
section
/-! DEFINITION. The machine under any choice of the parameters of 00_scope.md R8 that an instruction reads: SHIFT_SRC,
ADDI_FLAG, GLYPH_WRITE_PROTECT. `exec` and `step` are the machine at the defaults. (GLYPH_TABLE concerns only the memory
after reset: `State.resetWith`.) `System.apply` runs every transaction under the parameters its system holds. -/

namespace Sys2Proof.Machine

/-- `exec` with the parameters as an argument. Five instructions read one (43_alu.md R176, R178;
45_index_and_memory.md R200, R202, R203). -/
def execWith (p : Params) (i : Instr) (s : State) : StepResult :=
  match i with
  | .shr x y => .next (shrWith p.shiftSrc x y s)
  | .shl x y => .next (shlWith p.shiftSrc x y s)
  | .addI x => .next (addIWith p.addiFlag x s)
  | .ldB x => ldBWith p.glyphWriteProtect x s
  | .ldMemVx x => ldMemVxWith p.glyphWriteProtect x s
  | .cls | .ret | .jp _ | .call _ | .seImm _ _ | .sneImm _ _ | .seReg _ _ | .ldImm _ _ | .addImm _ _ | .ldReg _ _
  | .orReg _ _ | .andReg _ _ | .xorReg _ _ | .addReg _ _ | .sub _ _ | .subn _ _ | .sneReg _ _ | .ldI _ | .jpV0 _
  | .rnd _ _ | .drw _ _ _ | .skp _ | .sknp _ | .ldVxDt _ | .ldVxK _ | .ldDtVx _ | .ldStVx _ | .ldF _ | .ldVxMem _ =>
    exec i s

/-- `step` with the parameters as an argument (40_execution_cycle.md R120). -/
def stepWith (p : Params) (s : State) : StepResult :=
  match fetchDecode s with
  | .error f => raise f
  | .ok i => execWith p i s

end Sys2Proof.Machine
end

