-- ==== Sys2Proof/Machine/Transactions.lean ====
section
/-! DEFINITION. The host's transactions (00_scope.md R6): reset, load, tick_timers, set_key, frame_buffer, each an atomic
function of the state, and the block as the host sees it: any sequence of transactions under any parameters of 00_scope.md
R8, with the place in the lifecycle that 70_reset_and_hazards.md R284 and R285 speak of. -/

namespace Sys2Proof.Machine

/-- The state after reset with any glyph table (20_memory.md R62, 70_reset_and_hazards.md R280). -/
def State.resetWith (table : List Byte) : State := { State.reset with mem := State.reset.mem.writeList 0 (table.take 80) }

/-- The address at which `load` installs an image (70_reset_and_hazards.md R282). -/
def loadAddress : Nat := 0x200

/-- `load(image)` (70_reset_and_hazards.md R282, R283): the length check precedes the first write. -/
def load (image : List Byte) (s : State) : Except Fault State :=
  if ImageFits image then .ok { s with mem := s.mem.writeList loadAddress image }
  else .error (.loadError image.length)

/-- A timer after one tick: one less, floored at 0 (60_exceptions.md R255). -/
def tickTimer (v : Byte) : Byte := if v = 0 then 0 else v - 1

/-- `tick_timers()` (60_exceptions.md R255). -/
def tickTimers (s : State) : State := { s with dt := tickTimer s.dt, st := tickTimer s.st }

/-- `set_key(index, pressed)` (60_exceptions.md R257): no transition for an index above 15. -/
def setKey (index : Nat) (pressed : Bool) (s : State) : Option State :=
  if h : KeyIndexOk index then some (s.setKeyState ⟨index, Nat.lt_succ_of_le h⟩ pressed) else none

/-- `frame_buffer()` (60_exceptions.md R258): a snapshot of the 2048 pixels. -/
def frameBuffer (s : State) : Pixels := s.fb

/-- The six transactions of 00_scope.md R6. The random byte of `step` comes from the free stream `Config.rnd`. -/
inductive Transaction where
  | reset
  | load (image : List Byte)
  | step
  | tickTimers
  | setKey (index : Nat) (pressed : Bool)
  | frameBuffer
deriving DecidableEq, Repr

/-- What the host gets back (00_scope.md R6, 40_execution_cycle.md R126). -/
inductive Reply where
  /-- Success; for `step`, the stall of LD Vx, K included. -/
  | ok
  /-- An error of 60_exceptions.md R241 with its record. -/
  | error (f : Fault)
  /-- The pixels `frame_buffer()` returns. -/
  | pixels (fb : Pixels)
deriving DecidableEq, Repr

/-- The place in the lifecycle (70_reset_and_hazards.md R284, R285): not state of the machine but of the host's use of it. -/
inductive Phase where
  /-- After a reset: no `load` and no `step` yet. -/
  | fresh
  /-- After a `load`, before the first `step`. -/
  | loaded
  /-- After a `step`. -/
  | running
deriving DecidableEq, Repr

/-- The machine, the host's place in its lifecycle, and the parameters of 00_scope.md R8. No transaction changes the
parameters: they are fixed for a run. They are usable when `Params.WellFormed` holds. -/
structure System where
  machine : State
  phase : Phase
  params : Params
deriving DecidableEq, Repr

/-- The system right after its first `reset()`, under the parameters `p`. -/
def System.afterReset (p : Params) : System := ⟨State.resetWith p.glyphTable, .fresh, p⟩

/-- One transaction. A reset installs the run's glyph table, a step runs under its other parameters. A reset leaves the model's own count of random bytes alone, so that the free stream goes on (log
entry 5). An error is a reply and leaves the machine unchanged (60_exceptions.md R250); what the spec gives no
transition is refused (70_reset_and_hazards.md R284, 60_exceptions.md R257). -/
def System.apply (t : Transaction) (y : System) : Except Refusal (System × Reply) :=
  match t with
  | .reset => .ok (⟨{ State.resetWith y.params.glyphTable with draws := y.machine.draws }, .fresh, y.params⟩, .ok)
  | .load image =>
    if y.phase = .fresh then
      match load image y.machine with
      | .ok s => .ok (⟨s, .loaded, y.params⟩, .ok)
      | .error f => .ok (⟨y.machine, .loaded, y.params⟩, .error f)
    else .error .loadOutOfPlace
  | .step =>
    match stepWith y.params y.machine with
    | .next s => .ok (⟨s, .running, y.params⟩, .ok)
    | .fault f => .ok (⟨y.machine, .running, y.params⟩, .error f)
    | .refused r => .error r
  | .tickTimers => .ok (⟨tickTimers y.machine, y.phase, y.params⟩, .ok)
  | .setKey index pressed =>
    match setKey index pressed y.machine with
    | some s => .ok (⟨s, y.phase, y.params⟩, .ok)
    | none => .error (.keyIndexOutsideDomain index)
  | .frameBuffer => .ok (y, .pixels (frameBuffer y.machine))

/-- A sequence of transactions in the host's order, any interleaving (00_scope.md R5), with the replies in that order. -/
def System.run : List Transaction → System → Except Refusal (System × List Reply)
  | [], y => .ok (y, [])
  | t :: ts, y =>
    match System.apply t y with
    | .error r => .error r
    | .ok (y', r) =>
      match System.run ts y' with
      | .error e => .error e
      | .ok (z, rs) => .ok (z, r :: rs)

end Sys2Proof.Machine
end

