-- ==== Sys2Proof/Safety.lean ====
section
/-! DEFINITION. The terms in which claims about the machine are made: what an instruction may change (frames), the error
an instruction or a step raises, the pc it leaves, the pixels a sprite covers, and the invariant of every run. Each is
written from the spec's own tables, not from the meanings. -/

namespace Sys2Proof.Machine

/-! ### Frames -/

/-- The state elements an instruction may change; everything not named stays. -/
structure MayChange where
  /-- General registers (10_state.md R22). -/
  reg : Reg → Prop := fun _ => False
  /-- Memory cells, by address (20_memory.md R66). -/
  cell : Nat → Prop := fun _ => False
  /-- The address register (10_state.md R25). -/
  I : Prop := False
  /-- Stack slots (10_state.md R26). -/
  slot : Fin 16 → Prop := fun _ => False
  /-- The stack pointer (10_state.md R26). -/
  sp : Prop := False
  /-- The delay timer (10_state.md R27). -/
  dt : Prop := False
  /-- The sound timer (10_state.md R27). -/
  st : Prop := False
  /-- Keys (10_state.md R30). -/
  key : Fin 16 → Prop := fun _ => False
  /-- Pixels (10_state.md R31). -/
  pixels : Prop := False
  /-- The model's count of random bytes used. -/
  draws : Prop := False

/-- `t` differs from `s` at most in what `w` names, and in pc. Memory is compared byte by byte, through `Memory.read`. -/
structure Frame (w : MayChange) (s t : State) : Prop where
  regs : ∀ r, ¬ w.reg r → t.reg r = s.reg r
  cells : ∀ a, ¬ w.cell a → t.mem.read a = s.mem.read a
  index : ¬ w.I → t.I = s.I
  slots : ∀ j : Fin 16, ¬ w.slot j → t.stack[j.val] = s.stack[j.val]
  pointer : ¬ w.sp → t.sp = s.sp
  delay : ¬ w.dt → t.dt = s.dt
  sound : ¬ w.st → t.st = s.st
  keys : ∀ k, ¬ w.key k → t.keyDown k = s.keyDown k
  pixels : ¬ w.pixels → t.fb = s.fb
  draws : ¬ w.draws → t.draws = s.draws

/-- What each instruction may change besides pc: the writers the spec lists for the registers (10_state.md R22 to R24), I
(R25), the stack (R26), the timers (R27), the keys (R30), the pixels (R31) and memory (20_memory.md R66). -/
def mayChange (i : Instr) (s : State) : MayChange :=
  match i with
  | .cls => { pixels := True }
  | .ret => { sp := True }
  | .call _ => { slot := fun j => j.val = s.sp.val, sp := True }
  | .jp _ | .jpV0 _ | .seImm _ _ | .sneImm _ _ | .seReg _ _ | .sneReg _ _ | .skp _ | .sknp _ => {}
  | .ldImm x _ | .addImm x _ | .ldReg x _ | .orReg x _ | .andReg x _ | .xorReg x _ | .ldVxDt x => { reg := (· = x) }
  | .addReg x _ | .sub x _ | .shr x _ | .subn x _ | .shl x _ => { reg := fun r => r = x ∨ r = VF }
  | .ldI _ | .ldF _ => { I := True }
  | .rnd x _ => { reg := (· = x), draws := True }
  | .drw _ _ _ => { reg := (· = VF), pixels := True }
  | .ldVxK x => { reg := (· = x), key := fun k => s.firstPressed = some k }
  | .ldDtVx _ => { dt := True }
  | .ldStVx _ => { st := True }
  | .addI _ => { reg := (· = VF), I := True }
  | .ldB _ => { cell := fun a => s.I.toNat ≤ a ∧ a ≤ s.I.toNat + 2 }
  | .ldMemVx x => { cell := fun a => s.I.toNat ≤ a ∧ a ≤ s.I.toNat + x.val }
  | .ldVxMem x => { reg := (· ≤ x) }

/-- The seven instructions that write VF as a flag (10_state.md R24). -/
def writesFlag : Instr → Prop
  | .addReg _ _ | .sub _ _ | .shr _ _ | .subn _ _ | .shl _ _ | .addI _ | .drw _ _ _ => True
  | .cls | .ret | .jp _ | .call _ | .seImm _ _ | .sneImm _ _ | .seReg _ _ | .ldImm _ _ | .addImm _ _ | .ldReg _ _
  | .orReg _ _ | .andReg _ _ | .xorReg _ _ | .sneReg _ _ | .ldI _ | .jpV0 _ | .rnd _ _ | .skp _ | .sknp _ | .ldVxDt _
  | .ldVxK _ | .ldDtVx _ | .ldStVx _ | .ldF _ | .ldB _ | .ldMemVx _ | .ldVxMem _ => False

/-! ### The pc after an instruction (10_state.md R29) -/

/-- The table of 10_state.md R29 for an instruction that raises no error. -/
def nextPc (i : Instr) (s : State) : Word :=
  match i with
  | .seImm x nn => if s.reg x = nn then s.pc + 4 else s.pc + 2
  | .sneImm x nn => if s.reg x ≠ nn then s.pc + 4 else s.pc + 2
  | .seReg x y => if s.reg x = s.reg y then s.pc + 4 else s.pc + 2
  | .sneReg x y => if s.reg x ≠ s.reg y then s.pc + 4 else s.pc + 2
  | .skp x => if ∃ k : Fin 16, k.val = (s.reg x).toNat ∧ s.keyDown k = true then s.pc + 4 else s.pc + 2
  | .sknp x => if ∃ k : Fin 16, k.val = (s.reg x).toNat ∧ s.keyDown k = false then s.pc + 4 else s.pc + 2
  | .jp nnn | .call nnn => zextAddr nnn
  | .jpV0 nnn => zextAddr nnn + zextByte (s.reg 0)
  | .ret => s.stack[s.sp.val - 1]'(by omega) + 2
  | .ldVxK _ => if ∃ k : Fin 16, s.keyDown k = true then s.pc + 2 else s.pc
  | .cls | .ldImm _ _ | .addImm _ _ | .ldReg _ _ | .orReg _ _ | .andReg _ _ | .xorReg _ _ | .addReg _ _ | .sub _ _
  | .shr _ _ | .subn _ _ | .shl _ _ | .ldI _ | .rnd _ _ | .drw _ _ _ | .ldVxDt _ | .ldDtVx _ | .ldStVx _ | .addI _
  | .ldF _ | .ldB _ | .ldMemVx _ | .ldVxMem _ => s.pc + 2

/-! ### Errors (60_exceptions.md R241, R249) -/

/-- The own error of an instruction fetched as the word `w`: the rows 4 to 7 of 60_exceptions.md R241, with their records,
at the default GLYPH_WRITE_PROTECT. -/
def ownError (w : Word) (i : Instr) (s : State) : Option Fault :=
  match i with
  | .call _ => if s.sp.val = 16 then some (.stackOverflow s.pc) else none
  | .ret => if s.sp.val = 0 then some (.stackUnderflow s.pc) else none
  | .drw _ _ n =>
    if 0 < n.val ∧ 0xFFF < s.I.toNat + n.val - 1 then some (.addressError s.pc w (s.I.toNat + n.val - 1)) else none
  | .ldB _ => if 0xFFF < s.I.toNat + 2 then some (.addressError s.pc w (s.I.toNat + 2)) else none
  | .ldMemVx x | .ldVxMem x =>
    if 0xFFF < s.I.toNat + x.val then some (.addressError s.pc w (s.I.toNat + x.val)) else none
  | .skp x | .sknp x => if 0xF < (s.reg x).toNat then some (.keyIndexError s.pc (s.reg x)) else none
  | .cls | .jp _ | .seImm _ _ | .sneImm _ _ | .seReg _ _ | .ldImm _ _ | .addImm _ _ | .ldReg _ _ | .orReg _ _
  | .andReg _ _ | .xorReg _ _ | .addReg _ _ | .sub _ _ | .shr _ _ | .subn _ _ | .shl _ _ | .sneReg _ _ | .ldI _
  | .jpV0 _ | .rnd _ _ | .ldVxDt _ | .ldVxK _ | .ldDtVx _ | .ldStVx _ | .addI _ | .ldF _ => none

/-- The error of a step, in the order of checks of 40_execution_cycle.md R127: fetch, decode, the instruction's own. -/
def stepError (s : State) : Option Fault :=
  if 0xFFE < s.pc.toNat then some (.fetchError s.pc)
  else
    match decodeWord s.fetchWord with
    | none => some (.decodeError s.pc s.fetchWord)
    | some i => ownError s.fetchWord i s

/-- Executing `i` in `s` is the error `f`, under any parameters, and changes nothing: the `step` transaction that runs it
reports `f` and leaves the machine as it was (60_exceptions.md R250). -/
def StopsWith (i : Instr) (s : State) (f : Fault) : Prop :=
  exec i s = .fault f ∧
    ∀ p, execWith p i s = .fault f ∧
      ∀ ph, stepWith p s = execWith p i s → System.apply .step ⟨s, ph, p⟩ = .ok (⟨s, .running, p⟩, .error f)

/-! ### Sprites (46_display.md R221) -/

/-- The set bit of row `row` and column `col` of the sprite at I, drawn with height `n` from the origin (`ox`, `oy`), lands
on the pixel (`cx`, `cy`). -/
def BitLands (s : State) (ox oy n row col cx cy : Nat) : Prop :=
  row < n ∧ col < 8 ∧ (s.mem.read (s.I.toNat + row)).getLsbD (7 - col) = true ∧
    cx = (ox + col) % 64 ∧ cy = (oy + row) % 32

/-- Some set bit of the sprite lands on the pixel (`cx`, `cy`). -/
def Covered (s : State) (ox oy n cx cy : Nat) : Prop := ∃ row col, BitLands s ox oy n row col cx cy

/-- Some set bit of the sprite lands on a pixel that is set (00_scope.md R12, "Collision"). -/
def Collides (s : State) (ox oy n : Nat) : Prop :=
  ∃ cx cy, Covered s ox oy n cx cy ∧ s.fb.at cx cy = true

/-! ### The invariant of every run -/

/-- Memory is canonical; pc holds at most 0x10FE (10_state.md R28); every stack slot holds the address of a fetchable
instruction (41_control_flow.md R140: "a stored value came from a pc that fetched successfully"). -/
structure State.Inv (s : State) : Prop where
  memory : s.mem.wf
  pc : s.pc.toNat ≤ 0x10FE
  slots : ∀ j : Fin 16, s.stack[j.val].toNat ≤ 0xFFE

/-! ### Kinds of transaction -/

/-- The transactions that install no program and reset nothing: the step, and what may happen between two steps. -/
def Transaction.Ordinary : Transaction → Prop
  | .step | .tickTimers | .setKey _ _ | .frameBuffer => True
  | .reset | .load _ => False

/-- The ordinary transactions that press no key. -/
def Transaction.PressesNoKey : Transaction → Prop
  | .step | .tickTimers | .frameBuffer => True
  | .setKey _ pressed => pressed = false
  | .reset | .load _ => False

/-- The transactions that 70_reset_and_hazards.md R284 calls harmless between a reset and its load. -/
def Transaction.Harmless : Transaction → Prop
  | .tickTimers | .setKey _ _ | .frameBuffer => True
  | .reset | .load _ | .step => False

/-! ### Parameters (00_scope.md R8) -/

/-- The five instructions whose rule names a parameter: SHIFT_SRC (43_alu.md R176, R178), ADDI_FLAG
(45_index_and_memory.md R200), GLYPH_WRITE_PROTECT (45_index_and_memory.md R205). -/
def readsParameter : Instr → Prop
  | .shr _ _ | .shl _ _ | .addI _ | .ldB _ | .ldMemVx _ => True
  | .cls | .ret | .jp _ | .call _ | .seImm _ _ | .sneImm _ _ | .seReg _ _ | .ldImm _ _ | .addImm _ _ | .ldReg _ _
  | .orReg _ _ | .andReg _ _ | .xorReg _ _ | .addReg _ _ | .sub _ _ | .subn _ _ | .sneReg _ _ | .ldI _ | .jpV0 _
  | .rnd _ _ | .drw _ _ _ | .skp _ | .sknp _ | .ldVxDt _ | .ldVxK _ | .ldDtVx _ | .ldStVx _ | .ldF _ | .ldVxMem _ => False

/-! ### Effects stated for two instructions or two parameter values at once -/

/-- `t` is `s` after Vx became half of `a`, and VF the bit shifted out, written last (43_alu.md R176, R179). -/
def ShiftedRight (a : Byte) (x : Reg) (s t : State) : Prop :=
  (x ≠ VF → (t.reg x).toNat = a.toNat / 2) ∧ (t.reg VF).toNat = a.toNat % 2 ∧ t.pc = s.pc + 2 ∧
    Frame { reg := fun r => r = x ∨ r = VF } s t

/-- `t` is `s` after Vx became twice `a` modulo 256, and VF the bit shifted out, written last (43_alu.md R178, R179). -/
def ShiftedLeft (a : Byte) (x : Reg) (s t : State) : Prop :=
  (x ≠ VF → (t.reg x).toNat = a.toNat * 2 % 256) ∧ (t.reg VF).toNat = a.toNat / 128 ∧ t.pc = s.pc + 2 ∧
    Frame { reg := fun r => r = x ∨ r = VF } s t

/-- `t` is `s` after Vx became `a - b` modulo 256, and VF 1 exactly when nothing was borrowed, written last
(43_alu.md R175, R177, R179). -/
def Subtracted (a b : Byte) (x : Reg) (s t : State) : Prop :=
  (x ≠ VF → (t.reg x).toNat = (a.toNat + 256 - b.toNat) % 256) ∧ t.reg VF = (if b.toNat ≤ a.toNat then 1 else 0) ∧
    t.pc = s.pc + 2 ∧ Frame { reg := fun r => r = x ∨ r = VF } s t

/-- `t` is `s` after I became `I + Vx` modulo 65536, and VF the flag `f`, written last (45_index_and_memory.md R200). -/
def AddedToI (f : Prop) (x : Reg) (s t : State) : Prop :=
  t.I.toNat = (s.I.toNat + (s.reg x).toNat) % 65536 ∧ (f → t.reg VF = 1) ∧ (¬ f → t.reg VF = 0) ∧ t.pc = s.pc + 2 ∧
    Frame { reg := (· = VF), I := True } s t

end Sys2Proof.Machine
end

