-- ==== Sys2Proof/Certificates/Slice0/Obligations.lean ====
section
/-! DEFINITION. The statements for the provers. Each docstring names the rule of spec/ it formalises; where a clause rests on
a decision of 92_eei_decisions.md or on a choice of the model's log, it says so. -/

open Sys2Proof Sys2Proof.Machine

/-! ### Encoding -/

/-- 30_encoding.md R91, R94 to R96, R102; 20_memory.md R64: decoding what the encoder writes gives the instruction back, as a
word and as two bytes in front of any others. The opcode numbers are the spec's choice (92_eei_decisions.md D2). -/
def Obligations.DecodeEncodeRoundTrip : Prop :=
  ∀ i : Instr, i.WellFormed →
    decodeWord (encode i) = some i ∧ ∀ rest, decode (encodeBytes i ++ rest) = .ok (i, rest)

/-- 30_encoding.md R96: a word decodes to an instruction exactly when it selects that instruction's row, the only row it
selects; it decodes to none exactly when it selects no row. -/
def Obligations.DecoderFollowsOpcodeTable : Prop :=
  ∀ w : Word,
    (∀ i, decodeWord w = some i →
      ∀ k (h : k < opcodeTable.length), (opcodeTable[k]).Selects w ↔ k = i.rowIndex) ∧
    (decodeWord w = none ↔ ∀ r ∈ opcodeTable, ¬ r.Selects w)

/-- 30_encoding.md R98: the illegal words, class by class (the counts of the rule are not stated). The exact match in class
0 is the spec's decision D3 (log entry 7). -/
def Obligations.IllegalWordsExactly : Prop :=
  ∀ w : Word, decodeWord w = none ↔
    (w.toNat / 4096 = 0x0 ∧ w.toNat ≠ 0x00E0 ∧ w.toNat ≠ 0x00EE) ∨
    (w.toNat / 4096 = 0x8 ∧ w.toNat % 16 ∈ [0x8, 0x9, 0xA, 0xB, 0xC, 0xD, 0xF]) ∨
    (w.toNat / 4096 = 0xE ∧ w.toNat % 256 ∉ [0x9E, 0xA1]) ∨
    (w.toNat / 4096 = 0xF ∧ w.toNat % 256 ∉ [0x07, 0x0A, 0x15, 0x18, 0x1E, 0x29, 0x33, 0x55, 0x65])

/-- Words written out from the patterns of 30_encoding.md R96 and the examples of R102 decode to what they stand for. (0x512B
by the spec's decision D4, log entry 8.) -/
def Obligations.WrittenWordsDecode : Prop :=
  decodeWord 0x83A4 = some (.addReg 3 10) ∧ decodeWord 0xD125 = some (.drw 1 2 5) ∧
  decodeWord 0xF765 = some (.ldVxMem 7) ∧ decodeWord 0x12F0 = some (.jp 0x2F0) ∧
  decodeWord 0x00E0 = some .cls ∧ decodeWord 0xC30F = some (.rnd 3 0x0F) ∧ decodeWord 0xE49E = some (.skp 4) ∧
  decodeWord 0xF10A = some (.ldVxK 1) ∧ decodeWord 0x512B = some (.seReg 1 2) ∧
  decode [0x61, 0x2C] = .ok (.ldImm 1 0x2C, []) ∧ decode [0x01, 0x23] = .error (.illegal 0x0123)

/-! ### The execution cycle -/

/-- 40_execution_cycle.md R120, R121, R123, R125, R126: when the two bytes at pc decode to an instruction, the step is that
instruction executed on the same state, and nothing else, at the defaults and under any parameters; and the `step`
transaction whose step answers a next state makes that state the machine and replies OK. -/
def Obligations.StepRunsDecodedInstruction : Prop :=
  (∀ (s : State) (i : Instr), s.pc.toNat ≤ 0xFFE →
    decode [s.mem.read s.pc.toNat, s.mem.read (s.pc.toNat + 1)] = .ok (i, []) → i.WellFormed →
    step s = exec i s ∧ ∀ p, stepWith p s = execWith p i s) ∧
  ∀ (y : System) (t : State), stepWith y.params y.machine = .next t →
    System.apply .step y = .ok (⟨t, .running, y.params⟩, .ok)

/-- The instruction a word spells, stored where the fetch reads, is the one the next step executes. -/
def Obligations.StepRunsPlacedWord : Prop :=
  ∀ (s : State) (w : Nat) (i : Instr), decodeTableWord 16 w = some i →
    step (s.withFetchWord 16 w) = exec i (s.withFetchWord 16 w)

/-- 60_exceptions.md R241, R249: an instruction raises exactly its own error, under exactly its condition and with its
record; it is never refused; and it completes exactly when that condition does not hold. -/
def Obligations.InstructionErrorsExactly : Prop :=
  ∀ (i : Instr) (s : State),
    (∀ f, exec i s = .fault f ↔ ownError (encode i) i s = some f) ∧ (∀ r, exec i s ≠ .refused r) ∧
    ((∃ t, exec i s = .next t) ↔ ownError (encode i) i s = none)

/-- 40_execution_cycle.md R127, 60_exceptions.md R241: the error of a step, in the order fetch, decode, own check, recording
the word that was fetched; a step is never refused. -/
def Obligations.StepErrorsExactly : Prop :=
  ∀ s : State, (∀ f, step s = .fault f ↔ stepError s = some f) ∧ ∀ r, step s ≠ .refused r

/-- 10_state.md R29: the table of pc updates, at the defaults and under any parameters, and pc unchanged by a step error. -/
def Obligations.PcUpdateTable : Prop :=
  (∀ (i : Instr) (s t : State), exec i s = .next t → t.pc = nextPc i s) ∧
  (∀ (p : Params) (i : Instr) (s t : State), execWith p i s = .next t → t.pc = nextPc i s) ∧
  ∀ (y : System) (f : Fault), stepWith y.params y.machine = .fault f →
    ∃ z, System.apply .step y = .ok (z, .error f) ∧ z.machine.pc = y.machine.pc

/-- Who may change what: 10_state.md R22 to R27, R30, R31, 20_memory.md R66, 41_control_flow.md R148. For each of the 34
instructions everything outside its own list stays as it was. -/
def Obligations.InstructionFrames : Prop :=
  ∀ (i : Instr) (s t : State), exec i s = .next t → Frame (mayChange i s) s t

/-- 10_state.md R24: the seven flag writers leave VF exactly 0 or 1. -/
def Obligations.FlagIsZeroOrOne : Prop :=
  ∀ (i : Instr) (s t : State), writesFlag i → exec i s = .next t → t.reg VF = 0 ∨ t.reg VF = 1

/-- 20_memory.md R74: the fetch after a register dump reads the bytes just stored. -/
def Obligations.StoreSeenByNextFetch : Prop :=
  ∀ (x : Reg) (s t : State), exec (.ldMemVx x) s = .next t →
    (∀ r : Reg, r ≤ x → t.pc.toNat = s.I.toNat + r.val → highByte t.fetchWord = s.reg r) ∧
    (∀ r : Reg, r ≤ x → t.pc.toNat + 1 = s.I.toNat + r.val → lowByte t.fetchWord = s.reg r)

/-! ### Invariants -/

/-- 10_state.md R28 and 41_control_flow.md R140 (their derived bounds), and the model's canonical memory (log
entry 24, a DESIGN CHOICE): every step keeps the invariant, from every state that has it. -/
def Obligations.StepKeepsInvariant : Prop :=
  ∀ s t : State, s.Inv → step s = .next t → t.Inv

/-- The state after reset has the invariant: pc and stack by 10_state.md R33, and canonical memory, which is the model's
form of it (log entry 24, a DESIGN CHOICE). -/
def Obligations.ResetHasInvariant : Prop := State.reset.Inv

/-- Every sequence of host transactions, in any interleaving and under any parameters, keeps the invariant: the bounds
of 10_state.md R28 and 41_control_flow.md R140, and canonical memory, the model's own (log entry 24, a DESIGN CHOICE). -/
def Obligations.RunKeepsInvariant : Prop :=
  ∀ (ts : List Transaction) (y z : System) (rs : List Reply),
    y.machine.Inv → System.run ts y = .ok (z, rs) → z.machine.Inv

/-- 20_memory.md R71, "memory is a plain function from addresses to bytes": canonical memories that read alike inside the
address space are equal. The canonical form is the model's (log entry 24). -/
def Obligations.MemoryIsDeterminedByReads : Prop :=
  ∀ m n : Memory, m.wf → n.wf → (∀ a < 4096, m.read a = n.read a) → m = n

/-! ### Reset -/

/-- 10_state.md R33: the value of every element after reset. -/
def Obligations.ResetValues : Prop :=
  (∀ a, a < 0x50 → State.reset.mem.read a = params.glyphTable.getD a 0) ∧
  (∀ a, 0x50 ≤ a → a < 4096 → State.reset.mem.read a = 0) ∧
  (∀ r, State.reset.reg r = 0) ∧ State.reset.I = 0 ∧ State.reset.pc = 0x0200 ∧
  (∀ j : Fin 16, State.reset.stack[j.val] = 0) ∧ State.reset.sp.val = 0 ∧ State.reset.dt = 0 ∧ State.reset.st = 0 ∧
  (∀ k, State.reset.keyDown k = false) ∧ ∀ i : Fin 2048, State.reset.fb[i.val] = false

/-- 70_reset_and_hazards.md R280, 20_memory.md R62: whatever the 80 bytes of GLYPH_TABLE, reset installs them and leaves
every other cell zero and every other element as the default reset does. That the memory list is canonical, and that an
address above 0xFFF reads 0, is the model's (log entry 24, a DESIGN CHOICE). -/
def Obligations.ResetForEveryGlyphTable : Prop :=
  ∀ table : List Byte, table.length = 80 →
    (∀ a, (State.resetWith table).mem.read a = table.getD a 0) ∧ (State.resetWith table).mem.wf ∧
    { State.resetWith table with mem := State.reset.mem } = State.reset

/-- 70_reset_and_hazards.md R281: a reset may come at any time, from any state, and no state survives it; it installs the
run's own GLYPH_TABLE (00_scope.md R8), and at the default table it is State.reset. (The model's own count of random
bytes, no state of the spec's, goes on: log entry 5. A repeated reset is the spec's decision D22, log entry 18.) -/
def Obligations.ResetForgetsEverything : Prop :=
  (∀ y : System, ∃ z, System.apply .reset y = .ok (z, .ok) ∧
    z.machine = { State.resetWith y.params.glyphTable with draws := y.machine.draws } ∧ z.phase = .fresh ∧
    z.params = y.params) ∧
  State.resetWith params.glyphTable = State.reset

/-! ### Control flow -/

/-- 41_control_flow.md R140 (its derived bound is ReturnTargetIsBounded). -/
def Obligations.ReturnPopsAndAddsTwo : Prop :=
  decodeWord 0x00EE = some .ret ∧
  ∀ s : State,
    (s.sp.val = 0 → StopsWith .ret s (.stackUnderflow s.pc)) ∧
    ∀ h : 0 < s.sp.val, ∃ t, exec .ret s = .next t ∧ t.sp.val = s.sp.val - 1 ∧
      t.pc = s.stack[s.sp.val - 1]'(by omega) + 2 ∧ Frame { sp := True } s t

/-- 41_control_flow.md R141; a jump to its own address leaves the whole state unchanged. -/
def Obligations.JumpSetsPc : Prop :=
  ∀ nnn : Addr12, decodeWord (wordNNN 0x1 nnn) = some (.jp nnn) ∧
    ∀ s : State, ∃ t, exec (.jp nnn) s = .next t ∧ t.pc.toNat = nnn.toNat ∧ Frame {} s t ∧
      (s.pc.toNat = nnn.toNat → t = s)

/-- 41_control_flow.md R142. -/
def Obligations.CallPushesItsOwnAddress : Prop :=
  ∀ nnn : Addr12, decodeWord (wordNNN 0x2 nnn) = some (.call nnn) ∧
    ∀ s : State,
      (s.sp.val = 16 → StopsWith (.call nnn) s (.stackOverflow s.pc)) ∧
      ∀ h : s.sp.val < 16, ∃ t, exec (.call nnn) s = .next t ∧ t.stack[s.sp.val] = s.pc ∧
        t.sp.val = s.sp.val + 1 ∧ t.pc.toNat = nnn.toNat ∧
        Frame { slot := fun j => j.val = s.sp.val, sp := True } s t

/-- 41_control_flow.md R143, R144. -/
def Obligations.SkipsOnImmediate : Prop :=
  ∀ (x : Reg) (nn : Byte),
    decodeWord (wordXNN 0x3 x nn) = some (.seImm x nn) ∧ decodeWord (wordXNN 0x4 x nn) = some (.sneImm x nn) ∧
    ∀ s : State,
      (∃ t, exec (.seImm x nn) s = .next t ∧ (s.reg x = nn → t.pc = s.pc + 4) ∧ (s.reg x ≠ nn → t.pc = s.pc + 2) ∧
        Frame {} s t) ∧
      ∃ t, exec (.sneImm x nn) s = .next t ∧ (s.reg x ≠ nn → t.pc = s.pc + 4) ∧ (s.reg x = nn → t.pc = s.pc + 2) ∧
        Frame {} s t

/-- 41_control_flow.md R145, R146. That the low nibble of the word is ignored is the spec's decision D4 (30_encoding.md R94,
log entry 8). -/
def Obligations.SkipsOnRegisters : Prop :=
  ∀ x y : Reg,
    (∀ n : Nibble, decodeWord (nibbles 0x5 x y n) = some (.seReg x y) ∧
      decodeWord (nibbles 0x9 x y n) = some (.sneReg x y)) ∧
    ∀ s : State,
      (∃ t, exec (.seReg x y) s = .next t ∧ (s.reg x = s.reg y → t.pc = s.pc + 4) ∧
        (s.reg x ≠ s.reg y → t.pc = s.pc + 2) ∧ Frame {} s t) ∧
      ∃ t, exec (.sneReg x y) s = .next t ∧ (s.reg x ≠ s.reg y → t.pc = s.pc + 4) ∧
        (s.reg x = s.reg y → t.pc = s.pc + 2) ∧ Frame {} s t

/-- 41_control_flow.md R147; that the sum is not masked is the spec's decision D28. -/
def Obligations.IndexedJumpIsNotMasked : Prop :=
  ∀ nnn : Addr12, decodeWord (wordNNN 0xB nnn) = some (.jpV0 nnn) ∧
    ∀ s : State, ∃ t, exec (.jpV0 nnn) s = .next t ∧ t.pc.toNat = nnn.toNat + (s.reg 0).toNat ∧
      t.pc.toNat ≤ 0x10FE ∧ Frame {} s t

/-- 41_control_flow.md R140, R142, 90_conflicts.md C1 and C6: a call, then anything that leaves the stack as it found it,
then a return, resumes at the instruction after the call with the stack depth restored. -/
def Obligations.CallThenReturnResumesAfterCall : Prop :=
  ∀ (nnn : Addr12) (s t u : State), exec (.call nnn) s = .next t → u.stack = t.stack → u.sp = t.sp →
    ∃ v, exec .ret u = .next v ∧ v.pc = s.pc + 2 ∧ v.sp = s.sp

/-- 41_control_flow.md R140, its derived bound: in every state with the invariant a return leaves pc at most 0x1000. -/
def Obligations.ReturnTargetIsBounded : Prop :=
  ∀ s t : State, s.Inv → exec .ret s = .next t → t.pc.toNat ≤ 0x1000

/-! ### Immediates and random -/

/-- 42_immediate_and_random.md R160. -/
def Obligations.LoadImmediateResult : Prop :=
  ∀ (x : Reg) (nn : Byte), decodeWord (wordXNN 0x6 x nn) = some (.ldImm x nn) ∧
    ∀ s : State, ∃ t, exec (.ldImm x nn) s = .next t ∧ t.reg x = nn ∧ t.pc = s.pc + 2 ∧ Frame { reg := (· = x) } s t

/-- 42_immediate_and_random.md R161: modulo 256, and VF is not a flag of it. -/
def Obligations.AddImmediateWrapsWithoutFlag : Prop :=
  ∀ (x : Reg) (nn : Byte), decodeWord (wordXNN 0x7 x nn) = some (.addImm x nn) ∧
    ∀ s : State, ∃ t, exec (.addImm x nn) s = .next t ∧ (t.reg x).toNat = ((s.reg x).toNat + nn.toNat) % 256 ∧
      t.pc = s.pc + 2 ∧ Frame { reg := (· = x) } s t

/-- 42_immediate_and_random.md R162. -/
def Obligations.LoadAddressRegisterResult : Prop :=
  ∀ nnn : Addr12, decodeWord (wordNNN 0xA nnn) = some (.ldI nnn) ∧
    ∀ s : State, ∃ t, exec (.ldI nnn) s = .next t ∧ t.I.toNat = nnn.toNat ∧ t.pc = s.pc + 2 ∧ Frame { I := True } s t

/-- 42_immediate_and_random.md R163, 60_exceptions.md R259. That the random bytes come as a stream with a counter in State
is the model's choice (log entry 5); the stream has no body, so this holds whatever it is, and the last two clauses say for
every random byte `r` which results it gives and that each of them is possible. -/
def Obligations.RandomUnderMask : Prop :=
  ∀ (x : Reg) (nn : Byte), decodeWord (wordXNN 0xC x nn) = some (.rnd x nn) ∧
    (∀ s : State, ∃ t, exec (.rnd x nn) s = .next t ∧ t.reg x = Config.rnd s.draws &&& nn ∧ t.pc = s.pc + 2 ∧
      t.draws = s.draws + 1 ∧ Frame { reg := (· = x), draws := True } s t) ∧
    (∀ (r : Byte) (s : State), (rndWith r x nn s).reg x &&& ~~~nn = 0) ∧
    ∀ v : Byte, v &&& ~~~nn = 0 → ∃ r : Byte, ∀ s : State, (rndWith r x nn s).reg x = v

/-! ### Arithmetic and logic -/

/-- 43_alu.md R170, R171, R172, R173: none of the four writes VF as a flag. -/
def Obligations.CopyAndLogicResults : Prop :=
  ∀ x y : Reg,
    decodeWord (nibbles 0x8 x y 0x0) = some (.ldReg x y) ∧ decodeWord (nibbles 0x8 x y 0x1) = some (.orReg x y) ∧
    decodeWord (nibbles 0x8 x y 0x2) = some (.andReg x y) ∧ decodeWord (nibbles 0x8 x y 0x3) = some (.xorReg x y) ∧
    ∀ s : State,
      (∃ t, exec (.ldReg x y) s = .next t ∧ t.reg x = s.reg y ∧ t.pc = s.pc + 2 ∧ Frame { reg := (· = x) } s t) ∧
      (∃ t, exec (.orReg x y) s = .next t ∧ t.reg x = s.reg x ||| s.reg y ∧ t.pc = s.pc + 2 ∧
        Frame { reg := (· = x) } s t) ∧
      (∃ t, exec (.andReg x y) s = .next t ∧ t.reg x = s.reg x &&& s.reg y ∧ t.pc = s.pc + 2 ∧
        Frame { reg := (· = x) } s t) ∧
      ∃ t, exec (.xorReg x y) s = .next t ∧ t.reg x = s.reg x ^^^ s.reg y ∧ t.pc = s.pc + 2 ∧
        Frame { reg := (· = x) } s t

/-- 43_alu.md R174: the sum, and the carry out of bit 7 in VF; no carry in. The destination VF: FlagIsWrittenLast. -/
def Obligations.AddSetsCarry : Prop :=
  ∀ x y : Reg, decodeWord (nibbles 0x8 x y 0x4) = some (.addReg x y) ∧
    ∀ s : State, x ≠ VF → ∃ t, exec (.addReg x y) s = .next t ∧
      (t.reg x).toNat = ((s.reg x).toNat + (s.reg y).toNat) % 256 ∧
      t.reg VF = (if 255 < (s.reg x).toNat + (s.reg y).toNat then 1 else 0) ∧ t.pc = s.pc + 2 ∧
      Frame { reg := fun r => r = x ∨ r = VF } s t

/-- 43_alu.md R175, R177: the difference, and 1 in VF exactly when nothing was borrowed. The destination VF:
FlagIsWrittenLast. -/
def Obligations.SubtractionsSetNotBorrow : Prop :=
  ∀ x y : Reg,
    decodeWord (nibbles 0x8 x y 0x5) = some (.sub x y) ∧ decodeWord (nibbles 0x8 x y 0x7) = some (.subn x y) ∧
    ∀ s : State, x ≠ VF →
      (∃ t, exec (.sub x y) s = .next t ∧ Subtracted (s.reg x) (s.reg y) x s t) ∧
      ∃ t, exec (.subn x y) s = .next t ∧ Subtracted (s.reg y) (s.reg x) x s t

/-- 43_alu.md R179, the spec's decision D5 (log entry 9): with VF as the destination of ADD, SUB and SUBN the result is lost
and VF ends with the flag, computed from the old VF. (The two shifts: ShiftsByOne.) -/
def Obligations.FlagIsWrittenLast : Prop :=
  ∀ (y : Reg) (s : State),
    (∃ t, exec (.addReg VF y) s = .next t ∧
      t.reg VF = (if 255 < (s.reg VF).toNat + (s.reg y).toNat then 1 else 0) ∧ t.pc = s.pc + 2 ∧
      Frame { reg := (· = VF) } s t) ∧
    (∃ t, exec (.sub VF y) s = .next t ∧ t.reg VF = (if (s.reg y).toNat ≤ (s.reg VF).toNat then 1 else 0) ∧
      t.pc = s.pc + 2 ∧ Frame { reg := (· = VF) } s t) ∧
    ∃ t, exec (.subn VF y) s = .next t ∧ t.reg VF = (if (s.reg VF).toNat ≤ (s.reg y).toNat then 1 else 0) ∧
      t.pc = s.pc + 2 ∧ Frame { reg := (· = VF) } s t

/-- 43_alu.md R176, R178, R179. The machine shifts Vx (the spec's decision D6, log entry 2), and VF as the destination ends
with the flag (D5, log entry 9); the last two clauses give both values of SHIFT_SRC. -/
def Obligations.ShiftsByOne : Prop :=
  ∀ x y : Reg,
    decodeWord (nibbles 0x8 x y 0x6) = some (.shr x y) ∧ decodeWord (nibbles 0x8 x y 0xE) = some (.shl x y) ∧
    ∀ s : State,
      (∃ t, exec (.shr x y) s = .next t ∧ ShiftedRight (s.reg x) x s t) ∧
      (∃ t, exec (.shl x y) s = .next t ∧ ShiftedLeft (s.reg x) x s t) ∧
      (∀ p : Params, ∃ t, execWith p (.shr x y) s = .next t ∧
        ShiftedRight (if p.shiftSrc = .X then s.reg x else s.reg y) x s t) ∧
      ∀ p : Params, ∃ t, execWith p (.shl x y) s = .next t ∧
        ShiftedLeft (if p.shiftSrc = .X then s.reg x else s.reg y) x s t

/-! ### Keypad and timers -/

/-- 44_keypad_and_timers.md R190, R191. That a value above 0xF is a KeyIndexError is the spec's decision D10 (R196, log
entry 12). -/
def Obligations.KeySkips : Prop :=
  ∀ x : Reg,
    decodeWord (nibbles 0xE x 0x9 0xE) = some (.skp x) ∧ decodeWord (nibbles 0xE x 0xA 0x1) = some (.sknp x) ∧
    ∀ s : State,
      (0xF < (s.reg x).toNat → StopsWith (.skp x) s (.keyIndexError s.pc (s.reg x)) ∧
        StopsWith (.sknp x) s (.keyIndexError s.pc (s.reg x))) ∧
      ∀ k : Fin 16, (s.reg x).toNat = k.val →
        (∃ t, exec (.skp x) s = .next t ∧ (s.keyDown k = true → t.pc = s.pc + 4) ∧
          (s.keyDown k = false → t.pc = s.pc + 2) ∧ Frame {} s t) ∧
        ∃ t, exec (.sknp x) s = .next t ∧ (s.keyDown k = false → t.pc = s.pc + 4) ∧
          (s.keyDown k = true → t.pc = s.pc + 2) ∧ Frame {} s t

/-- 44_keypad_and_timers.md R192, R194, R195. -/
def Obligations.TimerMoves : Prop :=
  ∀ x : Reg,
    decodeWord (nibbles 0xF x 0x0 0x7) = some (.ldVxDt x) ∧ decodeWord (nibbles 0xF x 0x1 0x5) = some (.ldDtVx x) ∧
    decodeWord (nibbles 0xF x 0x1 0x8) = some (.ldStVx x) ∧
    ∀ s : State,
      (∃ t, exec (.ldVxDt x) s = .next t ∧ t.reg x = s.dt ∧ t.pc = s.pc + 2 ∧ Frame { reg := (· = x) } s t) ∧
      (∃ t, exec (.ldDtVx x) s = .next t ∧ t.dt = s.reg x ∧ t.pc = s.pc + 2 ∧ Frame { dt := True } s t) ∧
      ∃ t, exec (.ldStVx x) s = .next t ∧ t.st = s.reg x ∧ t.pc = s.pc + 2 ∧ Frame { st := True } s t

/-- 44_keypad_and_timers.md R193; that the test is of the key's level is the spec's decision D24. -/
def Obligations.KeyWaitStallsOrTakesLowestKey : Prop :=
  ∀ x : Reg, decodeWord (nibbles 0xF x 0x0 0xA) = some (.ldVxK x) ∧
    ∀ s : State,
      ((∀ k, s.keyDown k = false) → exec (.ldVxK x) s = .next s) ∧
      ∀ k : Fin 16, s.keyDown k = true → (∀ j < k, s.keyDown j = false) →
        ∃ t, exec (.ldVxK x) s = .next t ∧ (t.reg x).toNat = k.val ∧ t.keyDown k = false ∧ t.pc = s.pc + 2 ∧
          Frame { reg := (· = x), key := (· = k) } s t

/-- 60_exceptions.md R264, 70_reset_and_hazards.md R289: while no key is pressed, any mixture of steps, ticks, snapshots and
key releases leaves a machine that waits for a key as it was, the two timers apart. -/
def Obligations.StallLastsUntilKeyPress : Prop :=
  ∀ (x : Reg) (ts : List Transaction) (y z : System) (rs : List Reply),
    y.machine.pc.toNat ≤ 0xFFE → decodeWord y.machine.fetchWord = some (.ldVxK x) →
    (∀ k, y.machine.keyDown k = false) → (∀ t ∈ ts, t.PressesNoKey) → System.run ts y = .ok (z, rs) →
    z.machine = { y.machine with dt := z.machine.dt, st := z.machine.st } ∧ ∀ f, Reply.error f ∉ rs

/-! ### Address register and memory -/

/-- 45_index_and_memory.md R200. The flag's meaning at the default and the wrap of I are the spec's decisions D7 and D8
(log entries 3 and 10); the last clause gives all three readings of ADDI_FLAG. -/
def Obligations.AddToAddressRegister : Prop :=
  ∀ x : Reg, decodeWord (nibbles 0xF x 0x1 0xE) = some (.addI x) ∧
    ∀ s : State,
      (∃ t, exec (.addI x) s = .next t ∧ AddedToI (0xFF < s.I.toNat + (s.reg x).toNat) x s t) ∧
      ∀ p : Params, ∃ t, execWith p (.addI x) s = .next t ∧
        (p.addiFlag = .sumGtFF → AddedToI (0xFF < s.I.toNat + (s.reg x).toNat) x s t) ∧
        (p.addiFlag = .lowByteCarry → AddedToI (0xFF < s.I.toNat % 256 + (s.reg x).toNat) x s t) ∧
        (p.addiFlag = .sumGtFFF → AddedToI (0xFFF < s.I.toNat + (s.reg x).toNat) x s t)

/-- 45_index_and_memory.md R201. -/
def Obligations.GlyphAddressFromLowNibble : Prop :=
  ∀ x : Reg, decodeWord (nibbles 0xF x 0x2 0x9) = some (.ldF x) ∧
    ∀ s : State, ∃ t, exec (.ldF x) s = .next t ∧ t.I.toNat = 5 * ((s.reg x).toNat % 16) ∧ t.pc = s.pc + 2 ∧
      Frame { I := True } s t

/-- 45_index_and_memory.md R202. -/
def Obligations.DecimalDigitsStored : Prop :=
  ∀ x : Reg, decodeWord (nibbles 0xF x 0x3 0x3) = some (.ldB x) ∧
    ∀ s : State,
      (0xFFF < s.I.toNat + 2 →
        StopsWith (.ldB x) s (.addressError s.pc (nibbles 0xF x 0x3 0x3) (s.I.toNat + 2))) ∧
      (s.I.toNat + 2 ≤ 0xFFF → ∃ t, exec (.ldB x) s = .next t ∧
        (t.mem.read s.I.toNat).toNat = (s.reg x).toNat / 100 ∧
        (t.mem.read (s.I.toNat + 1)).toNat = (s.reg x).toNat / 10 % 10 ∧
        (t.mem.read (s.I.toNat + 2)).toNat = (s.reg x).toNat % 10 ∧ t.pc = s.pc + 2 ∧
        Frame { cell := fun a => s.I.toNat ≤ a ∧ a ≤ s.I.toNat + 2 } s t)

/-- 45_index_and_memory.md R203. -/
def Obligations.RegisterDumpStoresInclusive : Prop :=
  ∀ x : Reg, decodeWord (nibbles 0xF x 0x5 0x5) = some (.ldMemVx x) ∧
    ∀ s : State,
      (0xFFF < s.I.toNat + x.val →
        StopsWith (.ldMemVx x) s (.addressError s.pc (nibbles 0xF x 0x5 0x5) (s.I.toNat + x.val))) ∧
      (s.I.toNat + x.val ≤ 0xFFF → ∃ t, exec (.ldMemVx x) s = .next t ∧
        (∀ r : Reg, r ≤ x → t.mem.read (s.I.toNat + r.val) = s.reg r) ∧ t.pc = s.pc + 2 ∧
        Frame { cell := fun a => s.I.toNat ≤ a ∧ a ≤ s.I.toNat + x.val } s t)

/-- 45_index_and_memory.md R204, with the source's property: a load through the same I and x after a dump gives the
registers back, whatever they were in between. -/
def Obligations.RegisterLoadReadsInclusive : Prop :=
  ∀ x : Reg, decodeWord (nibbles 0xF x 0x6 0x5) = some (.ldVxMem x) ∧
    (∀ s : State,
      (0xFFF < s.I.toNat + x.val →
        StopsWith (.ldVxMem x) s (.addressError s.pc (nibbles 0xF x 0x6 0x5) (s.I.toNat + x.val))) ∧
      (s.I.toNat + x.val ≤ 0xFFF → ∃ t, exec (.ldVxMem x) s = .next t ∧
        (∀ r : Reg, r ≤ x → t.reg r = s.mem.read (s.I.toNat + r.val)) ∧ t.pc = s.pc + 2 ∧
        Frame { reg := (· ≤ x) } s t)) ∧
    ∀ s t u : State, exec (.ldMemVx x) s = .next t → u.mem = t.mem → u.I = t.I →
      ∃ v, exec (.ldVxMem x) u = .next v ∧ ∀ r : Reg, r ≤ x → v.reg r = s.reg r

/-- 20_memory.md R63, the behaviour of GLYPH_WRITE_PROTECT (the spec's decision D13, log entry 4): with it no instruction
changes a cell of 0x000 to 0x04F, and a store that would is an AddressError recording I; a store with I above 0x04F does
what it does without it (45_index_and_memory.md R205); the default is without it. -/
def Obligations.GlyphWriteProtection : Prop :=
  (∀ p : Params, p.glyphWriteProtect = true →
    (∀ (i : Instr) (s t : State), execWith p i s = .next t → ∀ a, a ≤ 0x04F → t.mem.read a = s.mem.read a) ∧
    ∀ (x : Reg) (s : State), s.I.toNat ≤ 0x04F →
      execWith p (.ldB x) s = .fault (.addressError s.pc (encode (.ldB x)) s.I.toNat) ∧
      execWith p (.ldMemVx x) s = .fault (.addressError s.pc (encode (.ldMemVx x)) s.I.toNat)) ∧
  (∀ (p : Params) (x : Reg) (s : State), (p.glyphWriteProtect = true → 0x04F < s.I.toNat) →
    execWith p (.ldB x) s = exec (.ldB x) s ∧ execWith p (.ldMemVx x) s = exec (.ldMemVx x) s) ∧
  params.glyphWriteProtect = false

/-- 00_scope.md R8: the machine is the parameterised one at the defaults, and an instruction whose rule names no parameter
runs alike under all. -/
def Obligations.MachineRunsAtDefaultParameters : Prop :=
  (∀ (i : Instr) (s : State), exec i s = execWith params i s) ∧ (∀ s : State, step s = stepWith params s) ∧
  (∀ (p : Params) (i : Instr) (s : State), ¬ readsParameter i → execWith p i s = exec i s) ∧
  params.shiftSrc = .X ∧ params.addiFlag = .sumGtFF ∧ params.glyphWriteProtect = false

/-! ### Display -/

/-- 46_display.md R220. -/
def Obligations.ClearScreenResult : Prop :=
  decodeWord 0x00E0 = some .cls ∧
  ∀ s : State, ∃ t, exec .cls s = .next t ∧ (∀ i : Fin 2048, t.fb[i.val] = false) ∧ t.pc = s.pc + 2 ∧
    Frame { pixels := True } s t

/-- 46_display.md R221, R222 (height 0 draws nothing by the spec's decision D29): the draw loop in closed form. A pixel
changes exactly when a set bit of the sprite lands on it, both coordinates wrapped; VF becomes 1 when such a pixel was set
before, else 0; out of memory it is an AddressError. -/
def Obligations.DrawFlipsExactlyTheCoveredPixels : Prop :=
  ∀ (x y : Reg) (n : Nibble), decodeWord (nibbles 0xD x y n) = some (.drw x y n) ∧
    ∀ s : State,
      (0 < n.val → 0xFFF < s.I.toNat + n.val - 1 →
        StopsWith (.drw x y n) s (.addressError s.pc (nibbles 0xD x y n) (s.I.toNat + n.val - 1))) ∧
      ((n.val = 0 ∨ s.I.toNat + n.val - 1 ≤ 0xFFF) → ∃ t, exec (.drw x y n) s = .next t ∧
        (∀ cx cy, cx < 64 → cy < 32 →
          (t.fb.at cx cy ≠ s.fb.at cx cy ↔ Covered s ((s.reg x).toNat % 64) ((s.reg y).toNat % 32) n.val cx cy)) ∧
        (Collides s ((s.reg x).toNat % 64) ((s.reg y).toNat % 32) n.val → t.reg VF = 1) ∧
        (¬ Collides s ((s.reg x).toNat % 64) ((s.reg y).toNat % 32) n.val → t.reg VF = 0) ∧
        t.pc = s.pc + 2 ∧ Frame { reg := (· = VF), pixels := True } s t)

/-- 46_display.md R221 corner case (g), first property: the same sprite drawn twice at the same place restores the pixels;
on a buffer that was clear, a sprite with a set bit reports no collision the first time and one the second. -/
def Obligations.DrawTwiceRestoresPixels : Prop :=
  ∀ (x y : Reg) (n : Nibble) (s t u : State), exec (.drw x y n) s = .next t →
    u.fb = t.fb → u.mem = t.mem → u.I = t.I → u.reg x = s.reg x → u.reg y = s.reg y →
    ∃ v, exec (.drw x y n) u = .next v ∧ v.fb = s.fb ∧
      ((∀ i : Fin 2048, s.fb[i.val] = false) →
        (∃ cx cy, Covered s ((s.reg x).toNat % 64) ((s.reg y).toNat % 32) n.val cx cy) →
        t.reg VF = 0 ∧ v.reg VF = 1)

/-- 46_display.md R221 corner case (g), second property: after a clear, a draw leaves exactly the sprite's set bits and
flag 0. -/
def Obligations.ClearThenDrawShowsSprite : Prop :=
  ∀ (x y : Reg) (n : Nibble) (s t u : State), exec .cls s = .next t → exec (.drw x y n) t = .next u →
    u.reg VF = 0 ∧ ∀ cx cy, cx < 64 → cy < 32 →
      (u.fb.at cx cy = true ↔ Covered s ((s.reg x).toNat % 64) ((s.reg y).toNat % 32) n.val cx cy)

/-! ### Host transactions -/

/-- 60_exceptions.md R255: one tick, and any number of ticks. -/
def Obligations.TicksCountTimersDown : Prop :=
  (∀ s : State, (tickTimers s).dt.toNat = s.dt.toNat - 1 ∧ (tickTimers s).st.toNat = s.st.toNat - 1 ∧
    (tickTimers s).pc = s.pc ∧ Frame { dt := True, st := True } s (tickTimers s)) ∧
  (∀ (n : Nat) (y : System), ∃ z rs, System.run (List.replicate n .tickTimers) y = .ok (z, rs) ∧
    z.machine.dt.toNat = y.machine.dt.toNat - n ∧ z.machine.st.toNat = y.machine.st.toNat - n ∧
    z.machine.pc = y.machine.pc ∧ Frame { dt := True, st := True } y.machine z.machine)

/-- 60_exceptions.md R257; that an index above 15 has no transition is the spec's decision D32 (log entry 30). -/
def Obligations.SetKeyWritesOneKey : Prop :=
  ∀ (index : Nat) (pressed : Bool) (y : System),
    (∀ h : index ≤ 15, ∃ z, System.apply (.setKey index pressed) y = .ok (z, .ok) ∧ z.phase = y.phase ∧
      z.machine.keyDown ⟨index, by omega⟩ = pressed ∧ z.machine.pc = y.machine.pc ∧
      Frame { key := fun k => k.val = index } y.machine z.machine) ∧
    (15 < index → System.apply (.setKey index pressed) y = .error (.keyIndexOutsideDomain index))

/-- 60_exceptions.md R258. -/
def Obligations.FrameBufferIsReadOnlySnapshot : Prop :=
  ∀ y : System, ∃ fb : Pixels, System.apply .frameBuffer y = .ok (y, .pixels fb) ∧
    ∀ cx cy, (hx : cx < 64) → (hy : cy < 32) → fb[cy * 64 + cx]'(by omega) = y.machine.fb.at cx cy

/-- 70_reset_and_hazards.md R282, 20_memory.md R76. -/
def Obligations.LoadInstallsImage : Prop :=
  ∀ (image : List Byte) (s : State),
    (image.length ≤ 3584 → ∃ t, load image s = .ok t ∧
      (∀ k (h : k < image.length), t.mem.read (0x200 + k) = image[k]) ∧ t.pc = s.pc ∧
      Frame { cell := fun a => 0x200 ≤ a ∧ a < 0x200 + image.length } s t) ∧
    (3584 < image.length → load image s = .error (.loadError image.length))

/-- 70_reset_and_hazards.md R284 (the spec's decision D20, log entry 17): after a load or a step, and no reset since, a load
has no transition; in the phase that a reset begins and the harmless transactions do not end it has one, which makes the
loaded state the machine, or reports the LoadError and keeps the machine as it was. -/
def Obligations.LoadOnlyOnceBeforeFirstStep : Prop :=
  (∀ (ts : List Transaction) (y z : System) (rs : List Reply) (image : List Byte),
    Transaction.reset ∉ ts → (Transaction.step ∈ ts ∨ ∃ im, Transaction.load im ∈ ts) →
    System.run ts y = .ok (z, rs) → System.apply (.load image) z = .error .loadOutOfPlace) ∧
  (∀ (ts : List Transaction) (y z : System) (rs : List Reply),
    (∀ t ∈ ts, t.Harmless) → System.run (.reset :: ts) y = .ok (z, rs) → z.phase = .fresh) ∧
  ∀ (image : List Byte) (y : System), y.phase = .fresh →
    (∀ s, load image y.machine = .ok s → System.apply (.load image) y = .ok (⟨s, .loaded, y.params⟩, .ok)) ∧
    ∀ f, load image y.machine = .error f →
      System.apply (.load image) y = .ok (⟨y.machine, .loaded, y.params⟩, .error f)

/-- 60_exceptions.md R250, 40_execution_cycle.md R125 (not applied, the spec's decision D15): a transaction that reports an
error leaves the machine unchanged. -/
def Obligations.ErrorLeavesMachineUnchanged : Prop :=
  ∀ (t : Transaction) (y z : System) (f : Fault), System.apply t y = .ok (z, .error f) → z.machine = y.machine

/-- 60_exceptions.md R252 (no latch, the spec's decision D17): after an error every later step reports the same error with
the same record, whatever ticks, key events and snapshots come in between. -/
def Obligations.StepErrorRepeats : Prop :=
  ∀ (ts : List Transaction) (y z : System) (rs : List Reply) (f : Fault),
    (∀ t ∈ ts, t.Ordinary) → stepWith y.params y.machine = .fault f → System.run ts y = .ok (z, rs) →
    stepWith z.params z.machine = .fault f

/-- 00_scope.md R8, 93_implementation_defined.md ("fixed for a run"): no sequence of transactions changes the parameters. -/
def Obligations.ParametersFixedForRun : Prop :=
  ∀ (ts : List Transaction) (y z : System) (rs : List Reply), System.run ts y = .ok (z, rs) → z.params = y.params
end

