-- ==== Sys2Proof/Laws/Decode.lean ====
section
/-! SUPPORT. The fields of a word as numbers, and the fields of a word the encoder builds. -/

namespace Sys2Proof

/-! ### Fields as quotients and remainders -/

theorem fieldClass_eq (w : Word) : fieldClass w = w.toNat / 4096 := by
  have := w.isLt
  simp only [fieldClass, BitVec.extractLsb_toNat, Nat.shiftRight_eq_div_pow]
  omega

theorem fieldX_val (w : Word) : (fieldX w).val = w.toNat / 256 % 16 := by
  simp only [fieldX, BitVec.extractLsb_toNat, Nat.shiftRight_eq_div_pow]

theorem fieldY_val (w : Word) : (fieldY w).val = w.toNat / 16 % 16 := by
  simp only [fieldY, BitVec.extractLsb_toNat, Nat.shiftRight_eq_div_pow]

theorem fieldN_val (w : Word) : (fieldN w).val = w.toNat % 16 := by
  simp [fieldN, BitVec.extractLsb_toNat]

theorem fieldNN_toNat (w : Word) : (fieldNN w).toNat = w.toNat % 256 := by
  simp [fieldNN, BitVec.extractLsb_toNat]

theorem fieldNNN_toNat (w : Word) : (fieldNNN w).toNat = w.toNat % 4096 := by
  simp [fieldNNN, BitVec.extractLsb_toNat]

/-! ### The words the encoder builds -/

theorem nibbles_toNat {c x y n : Nat} (hc : c < 16) (hx : x < 16) (hy : y < 16) (hn : n < 16) :
    (nibbles c x y n).toNat = c * 4096 + x * 256 + y * 16 + n := by
  simp only [nibbles, BitVec.toNat_ofNat]
  omega

theorem wordXNN_toNat {c x : Nat} (hc : c < 16) (hx : x < 16) (nn : Byte) :
    (wordXNN c x nn).toNat = c * 4096 + x * 256 + nn.toNat := by
  have := nn.isLt
  simp only [wordXNN, BitVec.toNat_ofNat]
  omega

theorem wordNNN_toNat {c : Nat} (hc : c < 16) (nnn : Addr12) : (wordNNN c nnn).toNat = c * 4096 + nnn.toNat := by
  have := nnn.isLt
  simp only [wordNNN, BitVec.toNat_ofNat]
  omega

theorem fieldClass_nibbles {c : Nat} (hc : c < 16) (x y n : Fin 16) : fieldClass (nibbles c x y n) = c := by
  rw [fieldClass_eq, nibbles_toNat hc x.isLt y.isLt n.isLt]
  omega

theorem fieldX_nibbles {c : Nat} (hc : c < 16) (x y n : Fin 16) : fieldX (nibbles c x y n) = x := by
  apply Fin.ext
  rw [fieldX_val, nibbles_toNat hc x.isLt y.isLt n.isLt]
  omega

theorem fieldY_nibbles {c : Nat} (hc : c < 16) (x y n : Fin 16) : fieldY (nibbles c x y n) = y := by
  apply Fin.ext
  rw [fieldY_val, nibbles_toNat hc x.isLt y.isLt n.isLt]
  omega

theorem fieldN_nibbles {c : Nat} (hc : c < 16) (x y n : Fin 16) : fieldN (nibbles c x y n) = n := by
  apply Fin.ext
  rw [fieldN_val, nibbles_toNat hc x.isLt y.isLt n.isLt]
  omega

theorem fieldNN_nibbles_toNat {c : Nat} (hc : c < 16) (x y n : Fin 16) :
    (fieldNN (nibbles c x y n)).toNat = y.val * 16 + n.val := by
  rw [fieldNN_toNat, nibbles_toNat hc x.isLt y.isLt n.isLt]
  omega

theorem fieldClass_wordXNN {c : Nat} (hc : c < 16) (x : Fin 16) (nn : Byte) : fieldClass (wordXNN c x nn) = c := by
  have := nn.isLt
  rw [fieldClass_eq, wordXNN_toNat hc x.isLt]
  omega

theorem fieldX_wordXNN {c : Nat} (hc : c < 16) (x : Fin 16) (nn : Byte) : fieldX (wordXNN c x nn) = x := by
  have := nn.isLt
  apply Fin.ext
  rw [fieldX_val, wordXNN_toNat hc x.isLt]
  omega

theorem fieldNN_wordXNN {c : Nat} (hc : c < 16) (x : Fin 16) (nn : Byte) : fieldNN (wordXNN c x nn) = nn := by
  have := nn.isLt
  apply BitVec.eq_of_toNat_eq
  rw [fieldNN_toNat, wordXNN_toNat hc x.isLt]
  omega

theorem fieldClass_wordNNN {c : Nat} (hc : c < 16) (nnn : Addr12) : fieldClass (wordNNN c nnn) = c := by
  have := nnn.isLt
  rw [fieldClass_eq, wordNNN_toNat hc]
  omega

theorem fieldNNN_wordNNN {c : Nat} (hc : c < 16) (nnn : Addr12) : fieldNNN (wordNNN c nnn) = nnn := by
  have := nnn.isLt
  apply BitVec.eq_of_toNat_eq
  rw [fieldNNN_toNat, wordNNN_toNat hc]
  omega

/-! ### Words and bytes -/

theorem wordOfBytes_toNat (hi lo : Byte) : (wordOfBytes hi lo).toNat = hi.toNat * 256 + lo.toNat := by
  have h := lo.isLt
  simp only [wordOfBytes, BitVec.toNat_append, Nat.shiftLeft_eq]
  rw [Nat.mul_comm, ← Nat.two_pow_add_eq_or_of_lt (by simpa using h)]

theorem highByte_toNat (w : Word) : (highByte w).toNat = w.toNat / 256 := by
  have := w.isLt
  simp only [highByte, BitVec.extractLsb_toNat, Nat.shiftRight_eq_div_pow]
  omega

theorem lowByte_toNat (w : Word) : (lowByte w).toNat = w.toNat % 256 := by
  simp [lowByte, BitVec.extractLsb_toNat]

@[simp] theorem wordOfBytes_bytes (w : Word) : wordOfBytes (highByte w) (lowByte w) = w := by
  apply BitVec.eq_of_toNat_eq
  rw [wordOfBytes_toNat, highByte_toNat, lowByte_toNat]
  omega

@[simp] theorem highByte_wordOfBytes (hi lo : Byte) : highByte (wordOfBytes hi lo) = hi := by
  have := lo.isLt
  apply BitVec.eq_of_toNat_eq
  rw [highByte_toNat, wordOfBytes_toNat]
  omega

@[simp] theorem lowByte_wordOfBytes (hi lo : Byte) : lowByte (wordOfBytes hi lo) = lo := by
  have := lo.isLt
  apply BitVec.eq_of_toNat_eq
  rw [lowByte_toNat, wordOfBytes_toNat]
  omega

/-! ### Masks of the opcode table -/

/-- The mask 0xF000 keeps the class. -/
theorem and_class_mask (w : Word) : w &&& 0xF000#16 = BitVec.ofNat 16 (w.toNat / 4096 * 4096) := by
  apply BitVec.eq_of_getLsbD_eq
  intro i hi
  rw [show w.toNat / 4096 * 4096 = w.toNat / 2 ^ 12 * 2 ^ 12 from rfl]
  simp only [BitVec.getLsbD_and, BitVec.getLsbD_ofNat, Nat.testBit_mul_two_pow, Nat.testBit_div_two_pow]
  interval_cases i <;> simp [BitVec.getLsbD, Nat.testBit]

/-- The masks 0xF00F, 0xF0FF and 0xFFFF keep the class and the low bits. -/
theorem and_low_mask (w : Word) {k : Nat} (hk : k ≤ 12) :
    w &&& BitVec.ofNat 16 (0xF000 + (2 ^ k - 1)) = BitVec.ofNat 16 (w.toNat / 4096 * 4096 + w.toNat % 2 ^ k) := by
  have hk' : 2 ^ k ≤ 2 ^ 12 := Nat.pow_le_pow_right (by norm_num) hk
  have e1 : w.toNat / 4096 * 4096 + w.toNat % 2 ^ k = w.toNat / 4096 * 4096 ||| w.toNat % 2 ^ k := by
    rw [Nat.mul_comm, show (4096 : Nat) = 2 ^ 12 from rfl, Nat.two_pow_add_eq_or_of_lt]
    exact lt_of_lt_of_le (Nat.mod_lt _ (by positivity)) hk'
  have e2 : 0xF000 + (2 ^ k - 1) = 0xF000 ||| (2 ^ k - 1) := by
    rw [show (0xF000 : Nat) = 2 ^ 12 * 15 from rfl, Nat.two_pow_add_eq_or_of_lt]
    omega
  rw [e1, e2, BitVec.ofNat_or, BitVec.ofNat_or, ← and_class_mask, BitVec.and_or_distrib_left]
  congr 1
  apply BitVec.eq_of_toNat_eq
  simp only [BitVec.toNat_and, BitVec.toNat_ofNat]
  rw [Nat.mod_eq_of_lt (a := 2 ^ k - 1) (by omega), Nat.and_two_pow_sub_one_eq_mod, Nat.mod_eq_of_lt (a := _ % 2 ^ k)]
  exact lt_of_lt_of_le (Nat.mod_lt _ (by positivity)) (by omega)

/-- A word selects a row of mask 0xF000 by its class. -/
theorem and_class_mask_eq {c : Nat} (hc : c < 16) (w : Word) :
    w &&& 0xF000#16 = BitVec.ofNat 16 (c * 4096) ↔ fieldClass w = c := by
  have := w.isLt
  rw [and_class_mask, fieldClass_eq, ← BitVec.toNat_inj, BitVec.toNat_ofNat, BitVec.toNat_ofNat]
  omega

/-- A word selects a row of mask 0xF00F or 0xF0FF by its class and its low 4 or 8 bits. -/
theorem and_low_mask_eq {c l k : Nat} (hc : c < 16) (hk : k ≤ 12) (hl : l < 2 ^ k) (w : Word) :
    w &&& BitVec.ofNat 16 (0xF000 + (2 ^ k - 1)) = BitVec.ofNat 16 (c * 4096 + l) ↔
      fieldClass w = c ∧ w.toNat % 2 ^ k = l := by
  have h12 : 2 ^ k ≤ 2 ^ 12 := Nat.pow_le_pow_right (by norm_num) hk
  have hm : w.toNat % 2 ^ k < 2 ^ k := Nat.mod_lt _ (by positivity)
  have := w.isLt
  rw [and_low_mask w hk, fieldClass_eq, ← BitVec.toNat_inj, BitVec.toNat_ofNat, BitVec.toNat_ofNat]
  generalize w.toNat % 2 ^ k = m at hm ⊢
  omega

end Sys2Proof
end

