-- ==== Sys2Proof/Laws/Display.lean ====
section
/-! SUPPORT. Pixels, and what one sprite row does to them. -/

namespace Sys2Proof.Machine

/-- Two pixels of the grid are the same cell of the buffer only when both coordinates agree. -/
theorem pixelIndex_inj {cx cy dx dy : Nat} :
    (pixelIndex cx cy).val = (pixelIndex dx dy).val ↔ cx % 64 = dx % 64 ∧ cy % 32 = dy % 32 := by
  simp only [pixelIndex]
  omega

/-- Every cell of the buffer is the pixel of its column and row (46_display.md R222). -/
theorem pixelIndex_of_lt {i : Nat} (h : i < 2048) : (pixelIndex (i % 64) (i / 64)).val = i := by
  simp only [pixelIndex]
  omega

/-- One set sprite bit flips its own pixel, no other, and collides when the pixel was set. -/
theorem drawPixel_at (ox oy row col : Nat) (d : Drawing) (cx cy : Nat) :
    (drawPixel ox oy row col d).1.at cx cy =
      if cx % 64 = (ox + col) % 64 ∧ cy % 32 = (oy + row) % 32 then !d.1.at cx cy else d.1.at cx cy := by
  unfold drawPixel Pixels.at
  simp only [Vector.getElem_set, pixelIndex_inj]
  split <;> rename_i h
  · rw [if_pos ⟨h.1.symm, h.2.symm⟩]
    congr 2
    exact pixelIndex_inj.2 h
  · rw [if_neg fun h' => h ⟨h'.1.symm, h'.2.symm⟩]

theorem drawPixel_collision (ox oy row col : Nat) (d : Drawing) :
    (drawPixel ox oy row col d).2 = (d.2 || d.1.at (ox + col) (oy + row)) := rfl

/-- One sprite row over distinct columns below 8: it flips exactly the pixels its set bits land on, and collides exactly
when one of them was set before. -/
theorem drawColumns_spec (ox oy row : Nat) (b : Byte) (cols : List Nat) (hnd : cols.Nodup) (hlt : ∀ c ∈ cols, c < 8)
    (d : Drawing) :
    (∀ cx cy, (drawColumns ox oy row b cols d).1.at cx cy =
      (d.1.at cx cy ^^ decide (∃ c ∈ cols, spriteBit b c = true ∧ cx % 64 = (ox + c) % 64 ∧ cy % 32 = (oy + row) % 32))) ∧
    (drawColumns ox oy row b cols d).2 =
      (d.2 || decide (∃ c ∈ cols, spriteBit b c = true ∧ d.1.at (ox + c) (oy + row) = true)) := by
  induction cols generalizing d with
  | nil => simp [drawColumns]
  | cons c cols ih =>
    obtain ⟨hc, hnd⟩ := List.nodup_cons.1 hnd
    have hc8 := hlt c (by simp)
    have other : ∀ c' ∈ cols, (ox + c') % 64 ≠ (ox + c) % 64 := fun c' hm h => by
      have := hlt c' (by simp [hm])
      obtain rfl : c' = c := by omega
      exact hc hm
    obtain ⟨ih₁, ih₂⟩ := ih hnd (fun c hc => hlt c (by simp [hc])) (if spriteBit b c = true then drawPixel ox oy row c d else d)
    simp only [drawColumns]
    refine ⟨fun cx cy => ?_, ?_⟩
    · rw [ih₁]
      by_cases hb : spriteBit b c = true
      · rw [if_pos hb, drawPixel_at]
        by_cases hp : cx % 64 = (ox + c) % 64 ∧ cy % 32 = (oy + row) % 32
        · rw [if_pos hp, decide_eq_false fun ⟨c', hm, _, h, _⟩ => other c' hm (h ▸ hp.1), decide_eq_true ⟨c, by simp, hb, hp⟩]
          cases d.1.at cx cy <;> rfl
        · rw [if_neg hp]
          congr 1
          simp only [List.mem_cons, exists_eq_or_imp, hp, and_false, false_or]
      · simp [hb]
    · rw [ih₂]
      by_cases hb : spriteBit b c = true
      · simp only [hb, if_true, drawPixel_collision, drawPixel_at]
        have same : (∃ c' ∈ cols, spriteBit b c' = true ∧ (if (ox + c') % 64 = (ox + c) % 64 ∧ True then
              !d.1.at (ox + c') (oy + row) else d.1.at (ox + c') (oy + row)) = true) ↔
            ∃ c' ∈ cols, spriteBit b c' = true ∧ d.1.at (ox + c') (oy + row) = true :=
          exists_congr fun c' => and_congr_right fun hm => by rw [if_neg fun h => other c' hm h.1]
        simp only [same]
        by_cases hq : d.1.at (ox + c) (oy + row) = true <;> simp [hq, hb]
      · simp [hb]

end Sys2Proof.Machine
end

