-- ==== Sys2Proof/Laws/Memory.lean ====
section
/-! SUPPORT. What the memory operations do, and that each keeps the canonical form. -/

namespace Sys2Proof.Machine

theorem Memory.read_erase (m : Memory) {a b : Nat} (h : b ≠ a) : (m.erase a).read b = m.read b := by
  induction m with
  | nil => rfl
  | cons c m ih =>
    obtain ⟨k, v⟩ := c
    simp only [Memory.erase, ne_eq, decide_not] at ih ⊢
    by_cases hk : k = a
    · subst hk; simp [Memory.read, h, ih]
    · by_cases hb : b = k <;> simp [hk, Memory.read, hb, ih]

theorem Memory.read_erase_self (m : Memory) (a : Nat) : (m.erase a).read a = resetByte a := by
  induction m with
  | nil => rfl
  | cons c m ih =>
    obtain ⟨k, v⟩ := c
    simp only [Memory.erase, ne_eq, decide_not] at ih ⊢
    by_cases hk : k = a
    · simp [hk, ih]
    · simp [hk, Memory.read, ih, Ne.symm hk]

theorem Memory.read_insert (m : Memory) (a b : Nat) (v : Byte) (h : ∀ c ∈ m, c.1 ≠ a) :
    (m.insert a v).read b = if b = a then v else m.read b := by
  induction m with
  | nil => rfl
  | cons c m ih =>
    obtain ⟨k, w⟩ := c
    have hk : k ≠ a := h (k, w) (by simp)
    unfold Memory.insert
    split
    · rfl
    · simp only [Memory.read, ih fun c hc => h c (List.mem_cons_of_mem _ hc)]
      split <;> rename_i hb
      · rw [if_neg (by omega)]
      · rfl

theorem Memory.read_write (m : Memory) (a b : Nat) (v : Byte) :
    (m.write a v).read b = if b = a then v else m.read b := by
  unfold Memory.write
  split <;> rename_i hv
  · split <;> rename_i hb
    · rw [hb, Memory.read_erase_self, hv]
    · exact Memory.read_erase m hb
  · rw [Memory.read_insert _ _ _ _ fun c hc => by simpa [Memory.erase] using (List.mem_filter.1 hc).2]
    split <;> rename_i hb
    · rfl
    · exact Memory.read_erase m hb

/-- Reading after a run of bytes is stored: inside the run the stored byte, outside it what was there. -/
theorem Memory.read_writeList (m : Memory) (a b : Nat) (vs : List Byte) :
    (m.writeList a vs).read b = if a ≤ b then vs.getD (b - a) (m.read b) else m.read b := by
  induction vs generalizing m a with
  | nil => simp [Memory.writeList]
  | cons v vs ih =>
    rw [Memory.writeList, ih, Memory.read_write]
    rcases lt_trichotomy b a with h | h | h
    · rw [if_neg (by omega), if_neg (by omega), if_neg (by omega)]
    · subst h; simp
    · rw [if_pos (by omega), if_neg (by omega), if_pos (by omega)]
      obtain ⟨k, rfl⟩ : ∃ k, b = a + 1 + k := ⟨b - (a + 1), by omega⟩
      rw [show a + 1 + k - a = k + 1 by omega, show a + 1 + k - (a + 1) = k by omega]
      simp

theorem Memory.ne_of_mem_erase {m : Memory} {a : Nat} {c : Host.Cell} (h : c ∈ m.erase a) : c.1 ≠ a := by
  simpa using (List.mem_filter.1 h).2

/-- The insertion keeps every old cell and adds the new one. -/
theorem Memory.mem_insert {m : Memory} {a : Nat} {v : Byte} {c : Host.Cell} :
    c ∈ m.insert a v ↔ c = (a, v) ∨ c ∈ m := by
  induction m with
  | nil => simp [Memory.insert]
  | cons d m ih =>
    unfold Memory.insert
    split
    · simp
    · simp [ih]; tauto

theorem Memory.wf_erase {m : Memory} (h : m.wf) (a : Nat) : (m.erase a).wf :=
  ⟨h.1.sublist List.filter_sublist, fun c hc => h.2 c (List.mem_of_mem_filter hc)⟩

theorem Memory.wf_insert {m : Memory} (h : m.wf) {a : Nat} {v : Byte} (ha : a < 4096) (hv : v ≠ resetByte a)
    (hn : ∀ c ∈ m, c.1 ≠ a) : (m.insert a v).wf := by
  refine ⟨?_, fun c hc => ?_⟩
  · obtain ⟨hp, -⟩ := h
    induction m with
    | nil => simp [Memory.insert]
    | cons d m ih =>
      have hd := hn d (by simp)
      rw [List.pairwise_cons] at hp
      unfold Memory.insert
      split
      · rename_i hlt
        rw [List.pairwise_cons, List.pairwise_cons]
        refine ⟨fun c hc => ?_, hp⟩
        obtain rfl | hc := List.mem_cons.1 hc
        · exact hlt
        · exact lt_trans hlt (hp.1 c hc)
      · rename_i hlt
        rw [List.pairwise_cons]
        refine ⟨fun c hc => ?_, ih (fun c hc => hn c (List.mem_cons_of_mem _ hc)) hp.2⟩
        obtain rfl | hc := Memory.mem_insert.1 hc
        · simp only at hlt ⊢; omega
        · exact hp.1 c hc
  · obtain rfl | hc := Memory.mem_insert.1 hc
    · exact ⟨ha, hv⟩
    · exact h.2 c hc

theorem Memory.wf_write {m : Memory} (h : m.wf) {a : Nat} (ha : a < 4096) (v : Byte) : (m.write a v).wf := by
  unfold Memory.write
  split
  · exact Memory.wf_erase h a
  · rename_i hv
    exact Memory.wf_insert (Memory.wf_erase h a) ha hv fun c hc => Memory.ne_of_mem_erase hc

theorem Memory.wf_writeList {m : Memory} (h : m.wf) (a : Nat) (vs : List Byte) (ha : a + vs.length ≤ 4096) :
    (m.writeList a vs).wf := by
  induction vs generalizing m a with
  | nil => exact h
  | cons v vs ih =>
    simp only [List.length_cons] at ha
    exact ih (Memory.wf_write h (by omega) v) (a + 1) (by omega)

theorem State.reset_mem_wf : State.reset.mem.wf := by simp [State.reset, Memory.wf]

@[simp] theorem Memory.length_readList (m : Memory) (a n : Nat) : (m.readList a n).length = n := by
  induction n generalizing a with
  | zero => rfl
  | succ n ih => simp [Memory.readList, ih]

theorem Memory.getElem?_readList (m : Memory) (a : Nat) {n k : Nat} (h : k < n) :
    (m.readList a n)[k]? = some (m.read (a + k)) := by
  induction n generalizing a k with
  | zero => omega
  | succ n ih =>
    cases k with
    | zero => simp [Memory.readList]
    | succ k =>
      simp only [Memory.readList, List.getElem?_cons_succ]
      rw [ih (a + 1) (by omega)]
      congr 2
      omega

end Sys2Proof.Machine
end

