-- ==== Sys2Proof/Laws/State.lean ====
section
/-! SUPPORT. One lemma for each field under each named update of State, so that no proof unfolds a record update. -/

namespace Sys2Proof.Machine.State

variable (s : State)

/-! `setReg` -/

@[simp] theorem setReg_mem (r : Reg) (v : Byte) : (s.setReg r v).mem = s.mem := rfl
@[simp] theorem setReg_regs (r : Reg) (v : Byte) : (s.setReg r v).regs = s.regs.set r.val v := rfl
@[simp] theorem setReg_I (r : Reg) (v : Byte) : (s.setReg r v).I = s.I := rfl
@[simp] theorem setReg_pc (r : Reg) (v : Byte) : (s.setReg r v).pc = s.pc := rfl
@[simp] theorem setReg_stack (r : Reg) (v : Byte) : (s.setReg r v).stack = s.stack := rfl
@[simp] theorem setReg_sp (r : Reg) (v : Byte) : (s.setReg r v).sp = s.sp := rfl
@[simp] theorem setReg_dt (r : Reg) (v : Byte) : (s.setReg r v).dt = s.dt := rfl
@[simp] theorem setReg_st (r : Reg) (v : Byte) : (s.setReg r v).st = s.st := rfl
@[simp] theorem setReg_key (r : Reg) (v : Byte) : (s.setReg r v).key = s.key := rfl
@[simp] theorem setReg_fb (r : Reg) (v : Byte) : (s.setReg r v).fb = s.fb := rfl
@[simp] theorem setReg_draws (r : Reg) (v : Byte) : (s.setReg r v).draws = s.draws := rfl

/-! `setFlag` -/

@[simp] theorem setFlag_mem (f : Bool) : (s.setFlag f).mem = s.mem := rfl
@[simp] theorem setFlag_regs (f : Bool) : (s.setFlag f).regs = s.regs.set VF.val (if f then 1 else 0) := rfl
@[simp] theorem setFlag_I (f : Bool) : (s.setFlag f).I = s.I := rfl
@[simp] theorem setFlag_pc (f : Bool) : (s.setFlag f).pc = s.pc := rfl
@[simp] theorem setFlag_stack (f : Bool) : (s.setFlag f).stack = s.stack := rfl
@[simp] theorem setFlag_sp (f : Bool) : (s.setFlag f).sp = s.sp := rfl
@[simp] theorem setFlag_dt (f : Bool) : (s.setFlag f).dt = s.dt := rfl
@[simp] theorem setFlag_st (f : Bool) : (s.setFlag f).st = s.st := rfl
@[simp] theorem setFlag_key (f : Bool) : (s.setFlag f).key = s.key := rfl
@[simp] theorem setFlag_fb (f : Bool) : (s.setFlag f).fb = s.fb := rfl
@[simp] theorem setFlag_draws (f : Bool) : (s.setFlag f).draws = s.draws := rfl

/-! `advance` -/

@[simp] theorem advance_mem : (s.advance).mem = s.mem := rfl
@[simp] theorem advance_regs : (s.advance).regs = s.regs := rfl
@[simp] theorem advance_I : (s.advance).I = s.I := rfl
@[simp] theorem advance_pc : (s.advance).pc = s.pc + 2 := rfl
@[simp] theorem advance_stack : (s.advance).stack = s.stack := rfl
@[simp] theorem advance_sp : (s.advance).sp = s.sp := rfl
@[simp] theorem advance_dt : (s.advance).dt = s.dt := rfl
@[simp] theorem advance_st : (s.advance).st = s.st := rfl
@[simp] theorem advance_key : (s.advance).key = s.key := rfl
@[simp] theorem advance_fb : (s.advance).fb = s.fb := rfl
@[simp] theorem advance_draws : (s.advance).draws = s.draws := rfl

/-! `skipIf` -/

@[simp] theorem skipIf_mem (c : Bool) : (s.skipIf c).mem = s.mem := rfl
@[simp] theorem skipIf_regs (c : Bool) : (s.skipIf c).regs = s.regs := rfl
@[simp] theorem skipIf_I (c : Bool) : (s.skipIf c).I = s.I := rfl
@[simp] theorem skipIf_pc (c : Bool) : (s.skipIf c).pc = if c then s.pc + 4 else s.pc + 2 := rfl
@[simp] theorem skipIf_stack (c : Bool) : (s.skipIf c).stack = s.stack := rfl
@[simp] theorem skipIf_sp (c : Bool) : (s.skipIf c).sp = s.sp := rfl
@[simp] theorem skipIf_dt (c : Bool) : (s.skipIf c).dt = s.dt := rfl
@[simp] theorem skipIf_st (c : Bool) : (s.skipIf c).st = s.st := rfl
@[simp] theorem skipIf_key (c : Bool) : (s.skipIf c).key = s.key := rfl
@[simp] theorem skipIf_fb (c : Bool) : (s.skipIf c).fb = s.fb := rfl
@[simp] theorem skipIf_draws (c : Bool) : (s.skipIf c).draws = s.draws := rfl

/-! `jump` -/

@[simp] theorem jump_mem (w : Word) : (s.jump w).mem = s.mem := rfl
@[simp] theorem jump_regs (w : Word) : (s.jump w).regs = s.regs := rfl
@[simp] theorem jump_I (w : Word) : (s.jump w).I = s.I := rfl
@[simp] theorem jump_pc (w : Word) : (s.jump w).pc = w := rfl
@[simp] theorem jump_stack (w : Word) : (s.jump w).stack = s.stack := rfl
@[simp] theorem jump_sp (w : Word) : (s.jump w).sp = s.sp := rfl
@[simp] theorem jump_dt (w : Word) : (s.jump w).dt = s.dt := rfl
@[simp] theorem jump_st (w : Word) : (s.jump w).st = s.st := rfl
@[simp] theorem jump_key (w : Word) : (s.jump w).key = s.key := rfl
@[simp] theorem jump_fb (w : Word) : (s.jump w).fb = s.fb := rfl
@[simp] theorem jump_draws (w : Word) : (s.jump w).draws = s.draws := rfl

/-! `setKeyState` -/

@[simp] theorem setKeyState_mem (k : Fin 16) (b : Bool) : (s.setKeyState k b).mem = s.mem := rfl
@[simp] theorem setKeyState_regs (k : Fin 16) (b : Bool) : (s.setKeyState k b).regs = s.regs := rfl
@[simp] theorem setKeyState_I (k : Fin 16) (b : Bool) : (s.setKeyState k b).I = s.I := rfl
@[simp] theorem setKeyState_pc (k : Fin 16) (b : Bool) : (s.setKeyState k b).pc = s.pc := rfl
@[simp] theorem setKeyState_stack (k : Fin 16) (b : Bool) : (s.setKeyState k b).stack = s.stack := rfl
@[simp] theorem setKeyState_sp (k : Fin 16) (b : Bool) : (s.setKeyState k b).sp = s.sp := rfl
@[simp] theorem setKeyState_dt (k : Fin 16) (b : Bool) : (s.setKeyState k b).dt = s.dt := rfl
@[simp] theorem setKeyState_st (k : Fin 16) (b : Bool) : (s.setKeyState k b).st = s.st := rfl
@[simp] theorem setKeyState_key (k : Fin 16) (b : Bool) : (s.setKeyState k b).key = s.key.set k.val b := rfl
@[simp] theorem setKeyState_fb (k : Fin 16) (b : Bool) : (s.setKeyState k b).fb = s.fb := rfl
@[simp] theorem setKeyState_draws (k : Fin 16) (b : Bool) : (s.setKeyState k b).draws = s.draws := rfl

/-! `storeAtI` -/

@[simp] theorem storeAtI_mem (bytes : List Byte) : (s.storeAtI bytes).mem = s.mem.writeList s.I.toNat bytes := rfl
@[simp] theorem storeAtI_regs (bytes : List Byte) : (s.storeAtI bytes).regs = s.regs := rfl
@[simp] theorem storeAtI_I (bytes : List Byte) : (s.storeAtI bytes).I = s.I := rfl
@[simp] theorem storeAtI_pc (bytes : List Byte) : (s.storeAtI bytes).pc = s.pc + 2 := rfl
@[simp] theorem storeAtI_stack (bytes : List Byte) : (s.storeAtI bytes).stack = s.stack := rfl
@[simp] theorem storeAtI_sp (bytes : List Byte) : (s.storeAtI bytes).sp = s.sp := rfl
@[simp] theorem storeAtI_dt (bytes : List Byte) : (s.storeAtI bytes).dt = s.dt := rfl
@[simp] theorem storeAtI_st (bytes : List Byte) : (s.storeAtI bytes).st = s.st := rfl
@[simp] theorem storeAtI_key (bytes : List Byte) : (s.storeAtI bytes).key = s.key := rfl
@[simp] theorem storeAtI_fb (bytes : List Byte) : (s.storeAtI bytes).fb = s.fb := rfl
@[simp] theorem storeAtI_draws (bytes : List Byte) : (s.storeAtI bytes).draws = s.draws := rfl

/-! `writeFlagged` -/

@[simp] theorem writeFlagged_eq (x : Reg) (r : Byte × Bool) :
    s.writeFlagged x r = ((s.setReg x r.1).setFlag r.2).advance := rfl

end Sys2Proof.Machine.State
end

