-- ==== Sys2Proof/Laws/Ops.lean ====
section
/-! SUPPORT. One lemma for each shared operation on registers, the stack, the keypad and the checks: what it can do. -/

namespace Sys2Proof.Machine

/-! ### Registers -/

theorem State.reg_setReg (s : State) (r q : Reg) (v : Byte) :
    (s.setReg r v).reg q = if q = r then v else s.reg q := by
  simp only [State.reg, State.setReg_regs, Vector.getElem_set, Fin.ext_iff, eq_comm]

theorem State.reg_setFlag (s : State) (f : Bool) (q : Reg) :
    (s.setFlag f).reg q = if q = VF then (if f then 1 else 0) else s.reg q :=
  State.reg_setReg s VF q _

/-- Two states with the same register file read alike. -/
theorem State.reg_congr {s t : State} (h : t.regs = s.regs) (r : Reg) : t.reg r = s.reg r := by
  simp only [State.reg, h]

@[simp] theorem State.reg_advance (s : State) (r : Reg) : s.advance.reg r = s.reg r := rfl
@[simp] theorem State.reg_skipIf (s : State) (c : Bool) (r : Reg) : (s.skipIf c).reg r = s.reg r := rfl
@[simp] theorem State.reg_jump (s : State) (w : Word) (r : Reg) : (s.jump w).reg r = s.reg r := rfl
@[simp] theorem State.reg_setKeyState (s : State) (k : Fin 16) (b : Bool) (r : Reg) :
    (s.setKeyState k b).reg r = s.reg r := rfl
@[simp] theorem State.reg_storeAtI (s : State) (bs : List Byte) (r : Reg) : (s.storeAtI bs).reg r = s.reg r := rfl

/-- A result and its flag: VF ends with the flag whatever the destination (43_alu.md R179). -/
theorem State.reg_writeFlagged (s : State) (x q : Reg) (r : Byte × Bool) :
    (s.writeFlagged x r).reg q =
      if q = VF then (if r.2 then 1 else 0) else if q = x then r.1 else s.reg q := by
  simp only [State.writeFlagged_eq, State.reg_advance, State.reg_setFlag, State.reg_setReg]

theorem State.length_firstRegs (s : State) {n : Nat} (h : n ≤ 16) : (s.firstRegs n).length = n := by
  simp [State.firstRegs, h]

theorem State.getD_firstRegs (s : State) {n : Nat} (r : Reg) (h : r.val < n) (d : Byte) :
    (s.firstRegs n).getD r.val d = s.reg r := by
  simp [State.firstRegs, h, State.reg]

/-- `loadRegs` fills the registers below `n` and leaves the others. -/
theorem getElem_loadRegs (m : Memory) (base n : Nat) (v : Vector Byte 16) {k : Nat} (hk : k < 16) :
    (loadRegs m base n v)[k] = if k < n then m.read (base + k) else v[k] := by
  induction n with
  | zero => simp [loadRegs]
  | succ n ih =>
    simp only [loadRegs, Vector.getElem_setIfInBounds, ih]
    split
    · subst n; simp
    · rename_i hne
      by_cases h : k < n
      · rw [if_pos h, if_pos (by omega)]
      · rw [if_neg h, if_neg (by omega)]

/-! ### The call stack -/

/-- A push succeeds exactly when fewer than 16 entries are in use. -/
theorem State.push_cases (s : State) (w : Word) :
    (s.sp.val = 16 ∧ s.push w = none) ∨
    ∃ h : s.sp.val < 16, s.push w =
      some { s with stack := s.stack.set s.sp.val w, sp := ⟨s.sp.val + 1, by omega⟩ } := by
  by_cases h : s.sp.val < 16
  · exact .inr ⟨h, by simp [State.push, h]⟩
  · exact .inl ⟨by omega, by simp [State.push, h]⟩

/-- A pop succeeds exactly when an entry is in use. -/
theorem State.pop_cases (s : State) :
    (s.sp.val = 0 ∧ s.pop = none) ∨
    ∃ h : 0 < s.sp.val, s.pop =
      some (s.stack[s.sp.val - 1]'(by omega), { s with sp := ⟨s.sp.val - 1, by omega⟩ }) := by
  by_cases h : 0 < s.sp.val
  · exact .inr ⟨h, by simp [State.pop, h]⟩
  · exact .inl ⟨by omega, by simp [State.pop, h]⟩

/-! ### The keypad -/

theorem State.keyDown_setKeyState (s : State) (k j : Fin 16) (b : Bool) :
    (s.setKeyState k b).keyDown j = if j = k then b else s.keyDown j := by
  simp only [State.keyDown, State.setKeyState_key, Vector.getElem_set, Fin.ext_iff, eq_comm]

/-- The search for a pressed key answers the lowest one, or none when none is pressed. -/
theorem State.firstPressed_cases (s : State) :
    ((∀ k, s.keyDown k = false) ∧ s.firstPressed = none) ∨
    ∃ k, s.firstPressed = some k ∧ s.keyDown k = true ∧ ∀ j < k, s.keyDown j = false := by
  unfold State.firstPressed
  cases h : (List.finRange 16).find? (fun k => s.keyDown k) with
  | none =>
    left
    refine ⟨fun k => ?_, rfl⟩
    have := List.find?_eq_none.1 h k (List.mem_finRange k)
    simpa using this
  | some k =>
    right
    obtain ⟨hk, as, bs, hsplit, has⟩ := List.find?_eq_some_iff_append.1 h
    refine ⟨k, rfl, hk, fun j hj => ?_⟩
    have hmem : j ∈ as ++ k :: bs := hsplit ▸ List.mem_finRange j
    have hsorted : (as ++ k :: bs).Pairwise (· < ·) := hsplit ▸ List.pairwise_lt_finRange 16
    rcases List.mem_append.1 hmem with hj' | hj'
    · simpa using has j hj'
    · rcases List.mem_cons.1 hj' with rfl | hj'
      · exact absurd hj (lt_irrefl _)
      · have := (List.pairwise_cons.1 (List.pairwise_append.1 hsorted).2.1).1 j hj'
        exact absurd hj (by omega)

/-- A register names a key exactly when it is at most 0xF. -/
theorem keyIndex_cases (v : Byte) :
    (15 < v.toNat ∧ keyIndex v = none) ∨ ∃ h : v.toNat < 16, keyIndex v = some ⟨v.toNat, h⟩ := by
  by_cases h : v.toNat < 16
  · exact .inr ⟨h, by simp [keyIndex, h]⟩
  · exact .inl ⟨by omega, by simp [keyIndex, h]⟩

/-! ### The checks before an access -/

theorem accessError_cases (w : Word) (kmax : Nat) (s : State) :
    (0xFFF < s.I.toNat + kmax ∧ accessError w kmax s = some (.addressError s.pc w (s.I.toNat + kmax))) ∨
    (s.I.toNat + kmax ≤ 0xFFF ∧ accessError w kmax s = none) := by
  unfold accessError State.effAddr
  by_cases h : 0xFFF < s.I.toNat + kmax
  · exact .inl ⟨h, if_pos h⟩
  · exact .inr ⟨by omega, if_neg h⟩

/-- The store check lets exactly the stores through that stay in memory and, when protected, out of the glyph table. -/
theorem storeError_eq_none (protect : Bool) (w : Word) (kmax : Nat) (s : State) :
    storeError protect w kmax s = none ↔
      s.I.toNat + kmax ≤ 0xFFF ∧ (protect = true → 0x04F < s.I.toNat) := by
  unfold storeError
  rcases accessError_cases w kmax s with ⟨h, e⟩ | ⟨h, e⟩ <;> rw [e]
  · simp; omega
  · cases protect <;> simp [h]

@[simp] theorem storeError_false (w : Word) (kmax : Nat) (s : State) :
    storeError false w kmax s = accessError w kmax s := by
  unfold storeError
  rcases accessError_cases w kmax s with ⟨h, e⟩ | ⟨h, e⟩ <;> simp [e]

/-! ### The two bytes a fetch reads -/

/-- A placed word is the one fetched next, and the pc can fetch it. -/
theorem State.fetch_placeWord (s : State) (w : Word) :
    (s.placeWord w).pc.toNat ≤ 0xFFE ∧ (s.placeWord w).fetchWord = w := by
  unfold State.placeWord
  split
  · refine ⟨by simp, ?_⟩
    simp [State.fetchWord, Memory.read_write, wordOfBytes_bytes]
  · rename_i h
    refine ⟨by simpa using h, ?_⟩
    simp [State.fetchWord, Memory.read_write, wordOfBytes_bytes]

end Sys2Proof.Machine
end

