-- ==== Sys2Proof/Laws/Exec.lean ====
section
/-! SUPPORT. What a step, a run, and each instruction that has an error of its own can answer, said once. -/

namespace Sys2Proof.Machine

/-- Fetch and decode succeed exactly with pc at most 0xFFE and a word that decodes. -/
theorem fetchDecode_eq_ok {s : State} {i : Instr} :
    fetchDecode s = .ok i ↔ s.pc.toNat ≤ 0xFFE ∧ decodeWord s.fetchWord = some i := by
  unfold fetchDecode
  by_cases hp : 0xFFE < s.pc.toNat
  · simp [hp]
  · cases hd : decodeWord s.fetchWord <;> simp [hp, show s.pc.toNat ≤ 0xFFE by omega]

/-- A step that answers a next state, under any parameters, fetched at most at 0xFFE, decoded an instruction, and executed
it under them. -/
theorem stepWith_next {p : Params} {s t : State} (h : stepWith p s = .next t) :
    s.pc.toNat ≤ 0xFFE ∧ ∃ i, decodeWord s.fetchWord = some i ∧ execWith p i s = .next t := by
  unfold stepWith at h
  cases hd : fetchDecode s with
  | error f => simp [hd, raise] at h
  | ok i => exact ⟨(fetchDecode_eq_ok.1 hd).1, i, (fetchDecode_eq_ok.1 hd).2, by simpa [hd] using h⟩

/-- A step that answers a next state fetched at most at 0xFFE, decoded an instruction, and executed it. -/
theorem step_next {s t : State} (h : step s = .next t) :
    s.pc.toNat ≤ 0xFFE ∧ ∃ i, decodeWord s.fetchWord = some i ∧ exec i s = .next t := by
  unfold step at h
  cases hd : fetchDecode s with
  | error f => simp [hd, raise] at h
  | ok i => exact ⟨(fetchDecode_eq_ok.1 hd).1, i, (fetchDecode_eq_ok.1 hd).2, by simpa [hd] using h⟩

theorem exec_ret_cases (s : State) :
    (s.sp.val = 0 ∧ exec .ret s = .fault (.stackUnderflow s.pc)) ∨
    ∃ h : 0 < s.sp.val, exec .ret s =
      .next { s with sp := ⟨s.sp.val - 1, by omega⟩, pc := s.stack[s.sp.val - 1]'(by omega) + 2 } := by
  rcases s.pop_cases with ⟨h, e⟩ | ⟨h, e⟩
  · exact .inl ⟨h, by simp [exec, execRet, e, raise]⟩
  · exact .inr ⟨h, by simp [exec, execRet, e, State.jump]⟩

theorem exec_call_cases (nnn : Addr12) (s : State) :
    (s.sp.val = 16 ∧ exec (.call nnn) s = .fault (.stackOverflow s.pc)) ∨
    ∃ h : s.sp.val < 16, exec (.call nnn) s =
      .next { s with stack := s.stack.set s.sp.val s.pc, sp := ⟨s.sp.val + 1, by omega⟩, pc := zextAddr nnn } := by
  rcases s.push_cases s.pc with ⟨h, e⟩ | ⟨h, e⟩
  · exact .inl ⟨h, by simp [exec, execCall, e, raise]⟩
  · exact .inr ⟨h, by simp [exec, execCall, e, State.jump]⟩

theorem exec_ldB_cases (x : Reg) (s : State) :
    (0xFFF < s.I.toNat + 2 ∧ exec (.ldB x) s = .fault (.addressError s.pc (encode (.ldB x)) (s.I.toNat + 2))) ∨
    (s.I.toNat + 2 ≤ 0xFFF ∧ exec (.ldB x) s = .next (s.storeAtI (bcdDigits (s.reg x)))) := by
  rcases accessError_cases (encode (.ldB x)) 2 s with ⟨h, e⟩ | ⟨h, e⟩
  · exact .inl ⟨h, by simp [exec, execLdB, ldBWith, storeError, e, raise]⟩
  · exact .inr ⟨h, by simp [exec, execLdB, ldBWith, storeError, params, e]⟩

/-- A store answers by its one check: an AddressError, or the bytes stored, under either GLYPH_WRITE_PROTECT. -/
theorem ldBWith_cases (protect : Bool) (x : Reg) (s : State) :
    (∃ f, storeError protect (encode (.ldB x)) 2 s = some f ∧ ldBWith protect x s = .fault f) ∨
    (storeError protect (encode (.ldB x)) 2 s = none ∧ ldBWith protect x s = .next (s.storeAtI (bcdDigits (s.reg x)))) := by
  cases h : storeError protect (encode (.ldB x)) 2 s with
  | some f => exact .inl ⟨f, rfl, by simp [ldBWith, h, raise]⟩
  | none => exact .inr ⟨rfl, by simp [ldBWith, h]⟩

theorem ldMemVxWith_cases (protect : Bool) (x : Reg) (s : State) :
    (∃ f, storeError protect (encode (.ldMemVx x)) x.val s = some f ∧ ldMemVxWith protect x s = .fault f) ∨
    (storeError protect (encode (.ldMemVx x)) x.val s = none ∧
      ldMemVxWith protect x s = .next (s.storeAtI (s.firstRegs (x.val + 1)))) := by
  cases h : storeError protect (encode (.ldMemVx x)) x.val s with
  | some f => exact .inl ⟨f, rfl, by simp [ldMemVxWith, h, raise]⟩
  | none => exact .inr ⟨rfl, by simp [ldMemVxWith, h]⟩

theorem exec_ldMemVx_cases (x : Reg) (s : State) :
    (0xFFF < s.I.toNat + x.val ∧
      exec (.ldMemVx x) s = .fault (.addressError s.pc (encode (.ldMemVx x)) (s.I.toNat + x.val))) ∨
    (s.I.toNat + x.val ≤ 0xFFF ∧ exec (.ldMemVx x) s = .next (s.storeAtI (s.firstRegs (x.val + 1)))) := by
  rcases accessError_cases (encode (.ldMemVx x)) x.val s with ⟨h, e⟩ | ⟨h, e⟩
  · exact .inl ⟨h, by simp [exec, execLdMemVx, ldMemVxWith, storeError, e, raise]⟩
  · exact .inr ⟨h, by simp [exec, execLdMemVx, ldMemVxWith, storeError, params, e]⟩

theorem exec_ldVxMem_cases (x : Reg) (s : State) :
    (0xFFF < s.I.toNat + x.val ∧
      exec (.ldVxMem x) s = .fault (.addressError s.pc (encode (.ldVxMem x)) (s.I.toNat + x.val))) ∨
    (s.I.toNat + x.val ≤ 0xFFF ∧
      exec (.ldVxMem x) s = .next { s with regs := loadRegs s.mem s.I.toNat (x.val + 1) s.regs }.advance) := by
  rcases accessError_cases (encode (.ldVxMem x)) x.val s with ⟨h, e⟩ | ⟨h, e⟩
  · exact .inl ⟨h, by simp [exec, execLdVxMem, e, raise]⟩
  · exact .inr ⟨h, by simp [exec, execLdVxMem, e]⟩

/-- The drawing of DRW, as its meaning computes it. -/
abbrev drawing (x y : Reg) (n : Nibble) (s : State) : Drawing :=
  drawSprite ((s.reg x).toNat % 64) ((s.reg y).toNat % 32) (s.mem.readList s.I.toNat n.val) s.fb

theorem exec_drw_cases (x y : Reg) (n : Nibble) (s : State) :
    ((0 < n.val ∧ 0xFFF < s.I.toNat + n.val - 1) ∧
      exec (.drw x y n) s = .fault (.addressError s.pc (encode (.drw x y n)) (s.I.toNat + n.val - 1))) ∨
    ((n.val = 0 ∨ s.I.toNat + n.val - 1 ≤ 0xFFF) ∧
      exec (.drw x y n) s =
        .next (({ s with fb := (drawing x y n s).1 }.setFlag (drawing x y n s).2).advance)) := by
  by_cases hn : n.val = 0
  · exact .inr ⟨.inl hn, by simp [exec, execDrw, drawError, drawing, hn]⟩
  · rcases accessError_cases (encode (.drw x y n)) (n.val - 1) s with ⟨h, e⟩ | ⟨h, e⟩
    · refine .inl ⟨⟨by omega, by omega⟩, ?_⟩
      simp only [exec, execDrw, drawError, hn, if_false, e, raise]
      rw [show s.I.toNat + (n.val - 1) = s.I.toNat + n.val - 1 by omega]
    · exact .inr ⟨.inr (by omega), by simp [exec, execDrw, drawError, drawing, hn, e]⟩

/-- A defined run of a transaction and more is that transaction, defined, and a defined run of the rest. -/
theorem System.run_cons {t : Transaction} {ts : List Transaction} {y z : System} {rs : List Reply}
    (h : System.run (t :: ts) y = .ok (z, rs)) :
    ∃ y' r rs', System.apply t y = .ok (y', r) ∧ System.run ts y' = .ok (z, rs') ∧ rs = r :: rs' := by
  simp only [System.run] at h
  split at h
  · cases h
  · split at h
    · cases h
    · injection h with h
      injection h with h₁ h₂
      subst h₁
      exact ⟨_, _, _, by assumption, by assumption, h₂.symm⟩

end Sys2Proof.Machine
end

