-- ==== Sys2Proof/Laws/PerInstr.lean ====
section
/-! SUPPORT. Statements for all instructions, one lemma for each constructor. Family RowMatch: the word the encoder writes
selects the instruction's own row of the opcode table (30_encoding.md R96), and is stored high byte first (20_memory.md
R64). -/

namespace Sys2Proof.Laws.RowMatch

/-- The encoder's word selects the instruction's row of 30_encoding.md R96, and its bytes are stored high byte first. -/
def Statement (i : Instr) : Prop :=
  (∃ r, opcodeTable[i.rowIndex]? = some r ∧ r.Selects (encode i)) ∧
    encodeBytes i = [BitVec.ofNat 8 ((encode i).toNat / 256), BitVec.ofNat 8 ((encode i).toNat % 256)]

theorem bytes_of (i : Instr) :
    encodeBytes i = [BitVec.ofNat 8 ((encode i).toNat / 256), BitVec.ofNat 8 ((encode i).toNat % 256)] := by
  have h := (encode i).isLt
  simp only [encodeBytes, List.cons.injEq, and_true]
  constructor <;> apply BitVec.eq_of_toNat_eq <;> simp only [highByte_toNat, lowByte_toNat, BitVec.toNat_ofNat] <;> omega

/-- A word of four nibbles selects its class's row of mask 0xF000. -/
theorem nibbles_class {c : Nat} (hc : c < 16) (x y n : Fin 16) :
    nibbles c x y n &&& 0xF000#16 = BitVec.ofNat 16 (c * 4096) :=
  (and_class_mask_eq hc _).2 (fieldClass_nibbles hc x y n)

/-- A word of four nibbles selects its row of mask 0xF00F. -/
theorem nibbles_low4 {c : Nat} (hc : c < 16) (x y n : Fin 16) :
    nibbles c x y n &&& 0xF00F#16 = BitVec.ofNat 16 (c * 4096 + n) :=
  (and_low_mask_eq (k := 4) hc (by norm_num) n.isLt _).2
    ⟨fieldClass_nibbles hc x y n, by rw [nibbles_toNat hc x.isLt y.isLt n.isLt]; omega⟩

/-- A word of four nibbles selects its row of mask 0xF0FF. -/
theorem nibbles_low8 {c : Nat} (hc : c < 16) (x y n : Fin 16) :
    nibbles c x y n &&& 0xF0FF#16 = BitVec.ofNat 16 (c * 4096 + (y * 16 + n)) :=
  (and_low_mask_eq (k := 8) hc (by norm_num) (by omega) _).2
    ⟨fieldClass_nibbles hc x y n, by rw [nibbles_toNat hc x.isLt y.isLt n.isLt]; omega⟩

theorem cls : Statement (.cls) :=
  ⟨⟨_, rfl, by decide⟩, bytes_of _⟩

theorem ret : Statement (.ret) :=
  ⟨⟨_, rfl, by decide⟩, bytes_of _⟩

theorem jp (nnn : Addr12) : Statement (.jp nnn) :=
  ⟨⟨_, rfl, (and_class_mask_eq (by norm_num) _).2 (fieldClass_wordNNN (by norm_num) nnn)⟩, bytes_of _⟩

theorem call (nnn : Addr12) : Statement (.call nnn) :=
  ⟨⟨_, rfl, (and_class_mask_eq (by norm_num) _).2 (fieldClass_wordNNN (by norm_num) nnn)⟩, bytes_of _⟩

theorem seImm (x : Reg) (nn : Byte) : Statement (.seImm x nn) :=
  ⟨⟨_, rfl, (and_class_mask_eq (by norm_num) _).2 (fieldClass_wordXNN (by norm_num) x nn)⟩, bytes_of _⟩

theorem sneImm (x : Reg) (nn : Byte) : Statement (.sneImm x nn) :=
  ⟨⟨_, rfl, (and_class_mask_eq (by norm_num) _).2 (fieldClass_wordXNN (by norm_num) x nn)⟩, bytes_of _⟩

theorem seReg (x : Reg) (y : Reg) : Statement (.seReg x y) :=
  ⟨⟨_, rfl, nibbles_class (by norm_num) x y 0x0⟩, bytes_of _⟩

theorem ldImm (x : Reg) (nn : Byte) : Statement (.ldImm x nn) :=
  ⟨⟨_, rfl, (and_class_mask_eq (by norm_num) _).2 (fieldClass_wordXNN (by norm_num) x nn)⟩, bytes_of _⟩

theorem addImm (x : Reg) (nn : Byte) : Statement (.addImm x nn) :=
  ⟨⟨_, rfl, (and_class_mask_eq (by norm_num) _).2 (fieldClass_wordXNN (by norm_num) x nn)⟩, bytes_of _⟩

theorem ldReg (x : Reg) (y : Reg) : Statement (.ldReg x y) :=
  ⟨⟨_, rfl, nibbles_low4 (by norm_num) x y 0x0⟩, bytes_of _⟩

theorem orReg (x : Reg) (y : Reg) : Statement (.orReg x y) :=
  ⟨⟨_, rfl, nibbles_low4 (by norm_num) x y 0x1⟩, bytes_of _⟩

theorem andReg (x : Reg) (y : Reg) : Statement (.andReg x y) :=
  ⟨⟨_, rfl, nibbles_low4 (by norm_num) x y 0x2⟩, bytes_of _⟩

theorem xorReg (x : Reg) (y : Reg) : Statement (.xorReg x y) :=
  ⟨⟨_, rfl, nibbles_low4 (by norm_num) x y 0x3⟩, bytes_of _⟩

theorem addReg (x : Reg) (y : Reg) : Statement (.addReg x y) :=
  ⟨⟨_, rfl, nibbles_low4 (by norm_num) x y 0x4⟩, bytes_of _⟩

theorem sub (x : Reg) (y : Reg) : Statement (.sub x y) :=
  ⟨⟨_, rfl, nibbles_low4 (by norm_num) x y 0x5⟩, bytes_of _⟩

theorem shr (x : Reg) (y : Reg) : Statement (.shr x y) :=
  ⟨⟨_, rfl, nibbles_low4 (by norm_num) x y 0x6⟩, bytes_of _⟩

theorem subn (x : Reg) (y : Reg) : Statement (.subn x y) :=
  ⟨⟨_, rfl, nibbles_low4 (by norm_num) x y 0x7⟩, bytes_of _⟩

theorem shl (x : Reg) (y : Reg) : Statement (.shl x y) :=
  ⟨⟨_, rfl, nibbles_low4 (by norm_num) x y 0xE⟩, bytes_of _⟩

theorem sneReg (x : Reg) (y : Reg) : Statement (.sneReg x y) :=
  ⟨⟨_, rfl, nibbles_class (by norm_num) x y 0x0⟩, bytes_of _⟩

theorem ldI (nnn : Addr12) : Statement (.ldI nnn) :=
  ⟨⟨_, rfl, (and_class_mask_eq (by norm_num) _).2 (fieldClass_wordNNN (by norm_num) nnn)⟩, bytes_of _⟩

theorem jpV0 (nnn : Addr12) : Statement (.jpV0 nnn) :=
  ⟨⟨_, rfl, (and_class_mask_eq (by norm_num) _).2 (fieldClass_wordNNN (by norm_num) nnn)⟩, bytes_of _⟩

theorem rnd (x : Reg) (nn : Byte) : Statement (.rnd x nn) :=
  ⟨⟨_, rfl, (and_class_mask_eq (by norm_num) _).2 (fieldClass_wordXNN (by norm_num) x nn)⟩, bytes_of _⟩

theorem drw (x : Reg) (y : Reg) (n : Nibble) : Statement (.drw x y n) :=
  ⟨⟨_, rfl, nibbles_class (by norm_num) x y n⟩, bytes_of _⟩

theorem skp (x : Reg) : Statement (.skp x) :=
  ⟨⟨_, rfl, nibbles_low8 (by norm_num) x 0x9 0xE⟩, bytes_of _⟩

theorem sknp (x : Reg) : Statement (.sknp x) :=
  ⟨⟨_, rfl, nibbles_low8 (by norm_num) x 0xA 0x1⟩, bytes_of _⟩

theorem ldVxDt (x : Reg) : Statement (.ldVxDt x) :=
  ⟨⟨_, rfl, nibbles_low8 (by norm_num) x 0x0 0x7⟩, bytes_of _⟩

theorem ldVxK (x : Reg) : Statement (.ldVxK x) :=
  ⟨⟨_, rfl, nibbles_low8 (by norm_num) x 0x0 0xA⟩, bytes_of _⟩

theorem ldDtVx (x : Reg) : Statement (.ldDtVx x) :=
  ⟨⟨_, rfl, nibbles_low8 (by norm_num) x 0x1 0x5⟩, bytes_of _⟩

theorem ldStVx (x : Reg) : Statement (.ldStVx x) :=
  ⟨⟨_, rfl, nibbles_low8 (by norm_num) x 0x1 0x8⟩, bytes_of _⟩

theorem addI (x : Reg) : Statement (.addI x) :=
  ⟨⟨_, rfl, nibbles_low8 (by norm_num) x 0x1 0xE⟩, bytes_of _⟩

theorem ldF (x : Reg) : Statement (.ldF x) :=
  ⟨⟨_, rfl, nibbles_low8 (by norm_num) x 0x2 0x9⟩, bytes_of _⟩

theorem ldB (x : Reg) : Statement (.ldB x) :=
  ⟨⟨_, rfl, nibbles_low8 (by norm_num) x 0x3 0x3⟩, bytes_of _⟩

theorem ldMemVx (x : Reg) : Statement (.ldMemVx x) :=
  ⟨⟨_, rfl, nibbles_low8 (by norm_num) x 0x5 0x5⟩, bytes_of _⟩

theorem ldVxMem (x : Reg) : Statement (.ldVxMem x) :=
  ⟨⟨_, rfl, nibbles_low8 (by norm_num) x 0x6 0x5⟩, bytes_of _⟩

end Sys2Proof.Laws.RowMatch
end

