-- ==== Sys2Proof/Machine/Assembly.lean ====
section
/-! DEFINITION. The assembler spelling of an instruction: the syntax column of 30_encoding.md R96 with the operand spellings
of R100. Text for a reader; no meaning uses it. -/

namespace Sys2Proof.Machine

/-- One hexadecimal digit, capital as in R100. -/
def hexDigit (n : Nat) : String :=
  match n % 16 with
  | 0 => "0" | 1 => "1" | 2 => "2" | 3 => "3" | 4 => "4" | 5 => "5" | 6 => "6" | 7 => "7"
  | 8 => "8" | 9 => "9" | 10 => "A" | 11 => "B" | 12 => "C" | 13 => "D" | 14 => "E" | _ => "F"

/-- A general register, V0 to VF. -/
def regText (r : Reg) : String := "V" ++ hexDigit r.val

/-- A byte, 0x00 to 0xFF. -/
def byteText (v : Byte) : String := "0x" ++ hexDigit (v.toNat / 16) ++ hexDigit v.toNat

/-- An address, 0x000 to 0xFFF. -/
def addrText (a : Addr12) : String := "0x" ++ hexDigit (a.toNat / 256) ++ hexDigit (a.toNat / 16) ++ hexDigit a.toNat

/-- A nibble, 0 to 15, in decimal. -/
def nibbleText (n : Nibble) : String := if n.val < 10 then hexDigit n.val else "1" ++ hexDigit (n.val - 10)

/-- A mnemonic with its operands, the destination first. -/
def twoText (op a b : String) : String := op ++ " " ++ a ++ ", " ++ b

/-- The spelling of an instruction. The Y of a shift is not spelled (rows 16 and 18). -/
def asmText : Instr → String
  | .cls => "CLS"
  | .ret => "RET"
  | .jp nnn => "JP " ++ addrText nnn
  | .call nnn => "CALL " ++ addrText nnn
  | .seImm x nn => twoText "SE" (regText x) (byteText nn)
  | .sneImm x nn => twoText "SNE" (regText x) (byteText nn)
  | .seReg x y => twoText "SE" (regText x) (regText y)
  | .ldImm x nn => twoText "LD" (regText x) (byteText nn)
  | .addImm x nn => twoText "ADD" (regText x) (byteText nn)
  | .ldReg x y => twoText "LD" (regText x) (regText y)
  | .orReg x y => twoText "OR" (regText x) (regText y)
  | .andReg x y => twoText "AND" (regText x) (regText y)
  | .xorReg x y => twoText "XOR" (regText x) (regText y)
  | .addReg x y => twoText "ADD" (regText x) (regText y)
  | .sub x y => twoText "SUB" (regText x) (regText y)
  | .shr x _ => "SHR " ++ regText x
  | .subn x y => twoText "SUBN" (regText x) (regText y)
  | .shl x _ => "SHL " ++ regText x
  | .sneReg x y => twoText "SNE" (regText x) (regText y)
  | .ldI nnn => twoText "LD" "I" (addrText nnn)
  | .jpV0 nnn => twoText "JP" "V0" (addrText nnn)
  | .rnd x nn => twoText "RND" (regText x) (byteText nn)
  | .drw x y n => twoText "DRW" (regText x) (regText y) ++ ", " ++ nibbleText n
  | .skp x => "SKP " ++ regText x
  | .sknp x => "SKNP " ++ regText x
  | .ldVxDt x => twoText "LD" (regText x) "DT"
  | .ldVxK x => twoText "LD" (regText x) "K"
  | .ldDtVx x => twoText "LD" "DT" (regText x)
  | .ldStVx x => twoText "LD" "ST" (regText x)
  | .addI x => twoText "ADD" "I" (regText x)
  | .ldF x => twoText "LD" "F" (regText x)
  | .ldB x => twoText "LD" "B" (regText x)
  | .ldMemVx x => twoText "LD" "[I]" (regText x)
  | .ldVxMem x => twoText "LD" (regText x) "[I]"

end Sys2Proof.Machine
end

