-- ==== Sys2Proof/Tests/Slice0.lean ====
section
/-! SUPPORT. Small tests, each about one step; the expected results are those of spec/95_test_vectors.md (T-numbers) or
written out from the rule named. At the end a witness for the hypotheses of every obligation. -/

namespace Sys2Proof.Tests

open Sys2Proof.Machine

/-! ### Builders and views -/

/-- The reset state with the instruction word `w` at pc, after `f` has set what the test starts from. -/
def start (w : Nat) (f : State → State := id) : State := (f State.reset).withFetchWord 16 w

/-- Set some general registers. -/
def withRegs (rs : List (Reg × Byte)) (s : State) : State := rs.foldl (fun s p => s.setReg p.1 p.2) s

/-- Set I and store bytes from it upwards. -/
def withI (i : Word) (bytes : List Byte) (s : State) : State :=
  { s with I := i, mem := s.mem.writeList i.toNat bytes }

/-- Set one pixel, by its number. -/
def withPixel (k : Fin 2048) (s : State) : State := { s with fb := s.fb.set k.val true }

/-- A view of the next state; `none` when the answer is no next state. -/
def seen {α : Type} (r : StepResult) (f : State → α) : Option α :=
  match r with
  | .next t => some (f t)
  | .fault _ => none
  | .refused _ => none

/-- The error of an answer. -/
def errorOf (r : StepResult) : Option Fault :=
  match r with
  | .fault f => some f
  | .next _ => none
  | .refused _ => none

/-- pc and two registers after one step. -/
def pcAnd (a b : Reg) (t : State) : Nat × Nat × Nat := (t.pc.toNat, (t.reg a).toNat, (t.reg b).toNat)

/-- The places, counted from `k`, at which a list is true. -/
def trueFrom : Nat → List Bool → List Nat
  | _, [] => []
  | k, b :: bs => if b then k :: trueFrom (k + 1) bs else trueFrom (k + 1) bs

/-- The numbers of the set pixels. -/
def lit (t : State) : List Nat := trueFrom 0 t.fb.toList

/-! ### Well-formedness: the ill-formed terms are refused. An ill-formed instruction cannot be written down. -/

theorem test_short_glyph_table_refused : ¬ ({ params with glyphTable := glyphTable.take 79 } : Params).WellFormed := by decide

theorem test_default_params_well_formed : params.WellFormed := by decide

theorem test_image_3585_refused : ¬ ImageFits (List.replicate 3585 0) ∧ ImageFits (List.replicate 3584 0) := by
  simp only [ImageFits, maxImage, List.length_replicate]; omega

theorem test_key_index_16_refused : ¬ KeyIndexOk 16 ∧ KeyIndexOk 15 := by decide

theorem test_instruction_well_formed : (Instr.drw 15 15 15).WellFormed ∧ (Instr.jp 0xFFF).WellFormed := by decide

theorem test_memory_form_refuses :
    ¬ Memory.wf [(0x301, 1), (0x300, 1)] ∧ ¬ Memory.wf [(0x300, 0)] ∧ ¬ Memory.wf [(0x1000, 1)] ∧ ¬ Memory.wf [(0, 0xF0)] ∧
    Memory.wf [(0, 0), (0x300, 1)] := by decide

/-! ### Decoding: for every constructor a word written out from the pattern column of 30_encoding.md R96 -/

theorem test_decode_control :
    decodeWord 0x00EE = some .ret ∧ decodeWord 0x12F0 = some (.jp 0x2F0) ∧ decodeWord 0x2ABC = some (.call 0xABC) ∧
    decodeWord 0x3105 = some (.seImm 1 5) ∧ decodeWord 0x4E7F = some (.sneImm 14 0x7F) ∧
    decodeWord 0x5120 = some (.seReg 1 2) ∧ decodeWord 0x9127 = some (.sneReg 1 2) ∧
    decodeWord 0xB3A5 = some (.jpV0 0x3A5) := by decide

theorem test_decode_immediate :
    decodeWord 0x6ABC = some (.ldImm 10 0xBC) ∧ decodeWord 0x7102 = some (.addImm 1 2) ∧
    decodeWord 0xA123 = some (.ldI 0x123) ∧ decodeWord 0xC30F = some (.rnd 3 0x0F) := by decide

theorem test_decode_alu :
    decodeWord 0x8120 = some (.ldReg 1 2) ∧ decodeWord 0x8121 = some (.orReg 1 2) ∧
    decodeWord 0x8122 = some (.andReg 1 2) ∧ decodeWord 0x8123 = some (.xorReg 1 2) ∧
    decodeWord 0x83A4 = some (.addReg 3 10) ∧ decodeWord 0x8125 = some (.sub 1 2) ∧ decodeWord 0x8126 = some (.shr 1 2) ∧
    decodeWord 0x8127 = some (.subn 1 2) ∧ decodeWord 0x812E = some (.shl 1 2) := by decide

theorem test_decode_keypad_timers :
    decodeWord 0xE49E = some (.skp 4) ∧ decodeWord 0xE4A1 = some (.sknp 4) ∧ decodeWord 0xF507 = some (.ldVxDt 5) ∧
    decodeWord 0xF30A = some (.ldVxK 3) ∧ decodeWord 0xF515 = some (.ldDtVx 5) ∧
    decodeWord 0xF518 = some (.ldStVx 5) := by decide

theorem test_decode_index_memory :
    decodeWord 0xF21E = some (.addI 2) ∧ decodeWord 0xF329 = some (.ldF 3) ∧ decodeWord 0xF033 = some (.ldB 0) ∧
    decodeWord 0xF255 = some (.ldMemVx 2) ∧ decodeWord 0xF765 = some (.ldVxMem 7) := by decide

theorem test_decode_display : decodeWord 0x00E0 = some .cls ∧ decodeWord 0xD125 = some (.drw 1 2 5) := by decide

/-- T24 to T29. -/
theorem test_decode_illegal :
    decodeWord 0x0000 = none ∧ decodeWord 0x0123 = none ∧ decodeWord 0x00E1 = none ∧ decodeWord 0x00FE = none ∧
    decodeWord 0x8128 = none ∧ decodeWord 0x812F = none ∧ decodeWord 0xE19F = none ∧ decodeWord 0xF100 = none ∧
    decodeWord 0xF156 = none ∧ decodeWord 0xF1FF = none := by decide

/-- T31: the byte at the lower address is the more significant. -/
theorem test_decode_bytes :
    decode [0x61, 0x2C, 0x99] = .ok (.ldImm 1 0x2C, [0x99]) ∧ decode [0x61] = .error .truncated ∧
    encodeBytes (.ldImm 1 0x2C) = [0x61, 0x2C] := ⟨rfl, rfl, by decide⟩

theorem test_decodeTableWord :
    decodeTableWord 16 0xF765 = some (.ldVxMem 7) ∧ decodeTableWord 16 0xF766 = none ∧
    decodeTableWord 8 0xF7E0 = some .cls := by decide

/-- The spellings of 30_encoding.md R102, and one of a height above 9. -/
theorem test_asm_text :
    (decodeWord 0x83A4).map asmText = some "ADD V3, VA" ∧ (decodeWord 0xD125).map asmText = some "DRW V1, V2, 5" ∧
    (decodeWord 0xF765).map asmText = some "LD V7, [I]" ∧ (decodeWord 0x12F0).map asmText = some "JP 0x2F0" ∧
    asmText (.drw 1 2 15) = "DRW V1, V2, 15" := by decide

/-! ### Fetch, decode, the cycle -/

/-- T20 to T22: 0xFFE is the last fetchable address. -/
theorem test_fetch_edge :
    seen (step (start 0x6007 fun s => { s with pc := 0xFFE })) (pcAnd 0 0) = some (0x1000, 7, 7) ∧
    errorOf (step { State.reset with pc := 0xFFF }) = some (.fetchError 0xFFF) ∧
    errorOf (step { State.reset with pc := 0x1000 }) = some (.fetchError 0x1000) := by decide

/-- T23, T24. -/
theorem test_decode_errors :
    errorOf (step State.reset) = some (.decodeError 0x200 0x0000) ∧
    errorOf (step (start 0x0123)) = some (.decodeError 0x200 0x0123) := by decide

/-- T30: no alignment. -/
theorem test_odd_pc : seen (step (start 0x6A55 fun s => { s with pc := 0x201 })) (pcAnd 10 0) = some (0x203, 0x55, 0) := by
  decide

/-- T43: the glyph table is fetched like any memory. -/
theorem test_fetch_glyph_bytes : { State.reset with pc := 1 }.fetchWord = 0x9090 := by decide

theorem test_withFetchWord_moves_unfetchable_pc :
    ({ State.reset with pc := 0x1000 }.withFetchWord 16 0x6007).pc = 0x200 ∧
    (State.reset.withFetchWord 16 0x6007).fetchWord = 0x6007 := by decide

/-! ### Control flow -/

/-- T48, T49, T47. -/
theorem test_ret :
    seen (step (start 0x00EE fun s => { s with sp := 2, stack := s.stack.set 1 0xABC, pc := 0x300 }))
      (fun t => (t.pc.toNat, t.sp.val, t.stack[1].toNat)) = some (0xABE, 1, 0xABC) ∧
    seen (step (start 0x00EE fun s => { s with sp := 1, stack := s.stack.set 0 0xFFE })) (fun t => t.pc.toNat)
      = some 0x1000 ∧
    errorOf (step (start 0x00EE)) = some (.stackUnderflow 0x200) := by decide

/-- T40, T42. -/
theorem test_jp :
    seen (step (start 0x12F0)) (pcAnd 0 15) = some (0x2F0, 0, 0) ∧
    seen (step (start 0x1FFF)) (pcAnd 0 15) = some (0xFFF, 0, 0) := by decide

/-- T44, T45, T46. -/
theorem test_call :
    seen (step (start 0x2ABC)) (fun t => (t.pc.toNat, t.sp.val, t.stack[0].toNat)) = some (0xABC, 1, 0x200) ∧
    seen (step (start 0x2500 fun s => { s with sp := 15, pc := 0x400 }))
      (fun t => (t.pc.toNat, t.sp.val, t.stack[15].toNat)) = some (0x500, 16, 0x400) ∧
    errorOf (step (start 0x2500 fun s => { s with sp := 16, pc := 0x400 })) = some (.stackOverflow 0x400) := by decide

/-- T50, T51. -/
theorem test_se_imm :
    seen (step (start 0x3105 (withRegs [(1, 5)]))) (pcAnd 1 15) = some (0x204, 5, 0) ∧
    seen (step (start 0x3105 (withRegs [(1, 4)]))) (pcAnd 1 15) = some (0x202, 4, 0) := by decide

/-- T52, T53. -/
theorem test_sne_imm :
    seen (step (start 0x4105 (withRegs [(1, 5)]))) (pcAnd 1 15) = some (0x202, 5, 0) ∧
    seen (step (start 0x4105 (withRegs [(1, 4)]))) (pcAnd 1 15) = some (0x204, 4, 0) := by decide

/-- T55, T56. -/
theorem test_se_reg :
    seen (step (start 0x5120 (withRegs [(1, 0x7E), (2, 0x7F)]))) (pcAnd 1 2) = some (0x202, 0x7E, 0x7F) ∧
    seen (step (start 0x512B (withRegs [(1, 0x7E), (2, 0x7E)]))) (pcAnd 1 2) = some (0x204, 0x7E, 0x7E) := by decide

/-- T59, T60. -/
theorem test_sne_reg :
    seen (step (start 0x9120 (withRegs [(1, 1), (2, 1)]))) (pcAnd 1 2) = some (0x202, 1, 1) ∧
    seen (step (start 0x9127 (withRegs [(1, 1), (2, 2)]))) (pcAnd 1 2) = some (0x204, 1, 2) := by decide

/-- T62, T63. -/
theorem test_jp_v0 :
    seen (step (start 0xB300 (withRegs [(0, 0xFF)]))) (pcAnd 0 15) = some (0x3FF, 0xFF, 0) ∧
    seen (step (start 0xBFFF (withRegs [(0, 0xFF)]))) (pcAnd 0 15) = some (0x10FE, 0xFF, 0) := by decide

/-! ### Immediate and random -/

/-- T70, T71. -/
theorem test_ld_imm :
    seen (step (start 0x6ABC)) (pcAnd 10 15) = some (0x202, 0xBC, 0) ∧
    seen (step (start 0x6F00 (withRegs [(15, 1)]))) (pcAnd 15 0) = some (0x202, 0, 0) := by decide

/-- T72 to T74. -/
theorem test_add_imm :
    seen (step (start 0x7102 (withRegs [(1, 0xFF)]))) (pcAnd 1 15) = some (0x202, 1, 0) ∧
    seen (step (start 0x7180 (withRegs [(1, 0x80), (15, 1)]))) (pcAnd 1 15) = some (0x202, 0, 1) ∧
    seen (step (start 0x7F01 (withRegs [(15, 0xFF)]))) (pcAnd 15 0) = some (0x202, 0, 0) := by decide

/-- T77. -/
theorem test_ld_i :
    seen (step (start 0xAFFF fun s => { s with I := 0x1234 })) (fun t => (t.pc.toNat, t.I.toNat)) = some (0x202, 0xFFF) := by
  decide

/-- T78, T81: whatever the random byte, here the two bytes of those vectors. -/
theorem test_rnd :
    pcAnd 3 15 (rndWith 0xA7 3 0x0F State.reset) = (0x202, 7, 0) ∧
    pcAnd 3 15 (rndWith 0xFF 3 0xF0 State.reset) = (0x202, 0xF0, 0) := by decide

/-- T80: the mask 0 gives 0 for every random byte; the count of bytes used goes up. -/
theorem test_rnd_zero_mask :
    seen (step (start 0xC300 (withRegs [(3, 9)]))) (fun t => (t.pc.toNat, t.draws)) = some (0x202, 1) ∧
    ∀ r : Byte, (rndWith r 3 0 State.reset).reg 3 = 0 := ⟨by decide, fun r => by simp [rndWith, State.advance, State.reg, State.setReg]⟩

/-! ### Arithmetic and logic -/

/-- T91. -/
theorem test_ld_reg : seen (step (start 0x8EF0 (withRegs [(15, 1)]))) (pcAnd 14 15) = some (0x202, 1, 1) := by decide

/-- T92. -/
theorem test_or :
    seen (step (start 0x8121 (withRegs [(1, 0xF0), (2, 0x0F), (15, 1)]))) (pcAnd 1 15) = some (0x202, 0xFF, 1) := by decide

/-- T93. -/
theorem test_and :
    seen (step (start 0x8122 (withRegs [(1, 0xF3), (2, 0x3F), (15, 1)]))) (pcAnd 1 15) = some (0x202, 0x33, 1) := by decide

/-- T94. -/
theorem test_xor :
    seen (step (start 0x8123 (withRegs [(1, 0xFF), (2, 0x0F), (15, 1)]))) (pcAnd 1 15) = some (0x202, 0xF0, 1) := by decide

/-- T2, T97. -/
theorem test_add_reg :
    seen (step (start 0x8124 (withRegs [(1, 0xFF), (2, 0x01)]))) (pcAnd 1 15) = some (0x202, 0, 1) ∧
    seen (step (start 0x8124 (withRegs [(1, 0x80), (2, 0x7F), (15, 1)]))) (pcAnd 1 15) = some (0x202, 0xFF, 0) := by decide

/-- T101, T102: the flag is written last; the old VF is the addend. -/
theorem test_add_reg_vf :
    seen (step (start 0x8F14 (withRegs [(15, 5), (1, 1)]))) (pcAnd 15 1) = some (0x202, 0, 1) ∧
    seen (step (start 0x81F4 (withRegs [(1, 1), (15, 0xFF)]))) (pcAnd 1 15) = some (0x202, 0, 1) := by decide

/-- T3, T104, T105. -/
theorem test_sub :
    seen (step (start 0x8125 (withRegs [(1, 1), (2, 2), (15, 1)]))) (pcAnd 1 15) = some (0x202, 0xFF, 0) ∧
    seen (step (start 0x8125 (withRegs [(1, 0x50), (2, 0x20)]))) (pcAnd 1 15) = some (0x202, 0x30, 1) ∧
    seen (step (start 0x8125 (withRegs [(1, 0x20), (2, 0x20)]))) (pcAnd 1 15) = some (0x202, 0, 1) := by decide

/-- T109: SUB into VF. -/
theorem test_sub_vf : seen (step (start 0x8F15 (withRegs [(15, 5), (1, 6)]))) (pcAnd 15 1) = some (0x202, 0, 6) := by decide

/-- T110, T111. -/
theorem test_shr :
    seen (step (start 0x8106 (withRegs [(1, 5)]))) (pcAnd 1 15) = some (0x202, 2, 1) ∧
    seen (step (start 0x8106 (withRegs [(1, 0xFE)]))) (pcAnd 1 15) = some (0x202, 0x7F, 0) := by decide

/-- T112: both values of SHIFT_SRC. -/
theorem test_shr_source :
    seen (step (start 0x8126 (withRegs [(1, 5), (2, 8)]))) (pcAnd 1 15) = some (0x202, 2, 1) ∧
    seen (stepWith { params with shiftSrc := .Y } (start 0x8126 (withRegs [(1, 5), (2, 8)]))) (pcAnd 1 15)
      = some (0x202, 4, 0) := by decide

/-- T115, T116. -/
theorem test_subn :
    seen (step (start 0x8127 (withRegs [(1, 0x20), (2, 0x50)]))) (pcAnd 1 15) = some (0x202, 0x30, 1) ∧
    seen (step (start 0x8127 (withRegs [(1, 0x50), (2, 0x20)]))) (pcAnd 1 15) = some (0x202, 0xD0, 0) := by decide

/-- T118, T119, T121. -/
theorem test_shl :
    seen (step (start 0x810E (withRegs [(1, 0x81)]))) (pcAnd 1 15) = some (0x202, 2, 1) ∧
    seen (step (start 0x810E (withRegs [(1, 0x7F)]))) (pcAnd 1 15) = some (0x202, 0xFE, 0) ∧
    seen (step (start 0x8F0E (withRegs [(15, 0x40)]))) (pcAnd 15 0) = some (0x202, 0, 0) := by decide

/-! ### Keypad and timers -/

/-- T130, T131, T134, T136. -/
theorem test_skp :
    seen (step (start 0xE49E fun s => (s.setReg 4 10).setKeyState 10 true)) (fun t => (t.pc.toNat, t.keyDown 10))
      = some (0x204, true) ∧
    seen (step (start 0xE49E (withRegs [(4, 10)]))) (pcAnd 4 15) = some (0x202, 10, 0) ∧
    errorOf (step (start 0xE49E (withRegs [(4, 0x10)]))) = some (.keyIndexError 0x200 0x10) ∧
    seen (step (start 0xE49E fun s => (s.setReg 4 15).setKeyState 15 true)) (pcAnd 4 15) = some (0x204, 15, 0) := by decide

/-- T132, T133, T135. -/
theorem test_sknp :
    seen (step (start 0xE4A1 fun s => (s.setReg 4 10).setKeyState 10 true)) (pcAnd 4 15) = some (0x202, 10, 0) ∧
    seen (step (start 0xE4A1 (withRegs [(4, 10)]))) (pcAnd 4 15) = some (0x204, 10, 0) ∧
    errorOf (step (start 0xE4A1 (withRegs [(4, 0xFF)]))) = some (.keyIndexError 0x200 0xFF) := by decide

/-- T137. -/
theorem test_ld_vx_dt :
    seen (step (start 0xF507 fun s => { s with dt := 0x2C })) (fun t => (t.pc.toNat, t.reg 5, t.dt))
      = some (0x202, 0x2C, 0x2C) := by decide

/-- T10, T141: the stall; the lowest pressed key is taken and cleared. -/
theorem test_ld_vx_k :
    seen (step (start 0xF30A (withRegs [(3, 0xAA)]))) (pcAnd 3 15) = some (0x200, 0xAA, 0) ∧
    seen (step (start 0xF10A fun s => (s.setKeyState 3 true).setKeyState 7 true))
      (fun t => (pcAnd 1 15 t, t.keyDown 3, t.keyDown 7)) = some ((0x202, 3, 0), false, true) := by decide

/-- T138, T140. -/
theorem test_ld_dt_vx :
    seen (step (start 0xF515 (withRegs [(5, 0x3C)]))) (fun t => (t.pc.toNat, t.dt, t.st)) = some (0x202, 0x3C, 0) ∧
    seen (step (start 0xF515 fun s => { s with dt := 0x10 })) (fun t => t.dt) = some 0 := by decide

/-- T139. -/
theorem test_ld_st_vx :
    seen (step (start 0xF518 (withRegs [(5, 5)]))) (fun t => (t.pc.toNat, t.dt, t.st)) = some (0x202, 0, 5) := by decide

/-! ### Address register and memory -/

/-- T151, T154, T156. -/
theorem test_add_i :
    seen (step (start 0xF21E fun s => { s.setReg 2 0x10 with I := 0x300 })) (fun t => (t.pc.toNat, t.I.toNat, t.reg 15))
      = some (0x202, 0x310, 1) ∧
    seen (step (start 0xF21E fun s => { s.setReg 2 2 with I := 0xFFFF })) (fun t => (t.pc.toNat, t.I.toNat, t.reg 15))
      = some (0x202, 1, 1) ∧
    seen (step (start 0xFF1E (withRegs [(15, 7)]))) (fun t => (t.pc.toNat, t.I.toNat, t.reg 15)) = some (0x202, 7, 0) := by
  decide

/-- T152: the three readings of ADDI_FLAG. -/
theorem test_add_i_flag :
    (addIWith .sumGtFF 2 { State.reset.setReg 2 0x10 with I := 0xF0 }).reg 15 = 1 ∧
    (addIWith .lowByteCarry 2 { State.reset.setReg 2 0x10 with I := 0xF0 }).reg 15 = 1 ∧
    (addIWith .sumGtFFF 2 { State.reset.setReg 2 0x10 with I := 0xF0 }).reg 15 = 0 := by decide

/-- T11, T159. -/
theorem test_ld_f :
    seen (step (start 0xF329 (withRegs [(3, 0x0B)]))) (fun t => (t.pc.toNat, t.I.toNat)) = some (0x202, 0x37) ∧
    seen (step (start 0xF329 (withRegs [(3, 0xF7)]))) (fun t => (t.pc.toNat, t.I.toNat)) = some (0x202, 0x23) := by decide

/-- T160, T164, T165. -/
theorem test_ld_b :
    seen (step (start 0xF033 fun s => withI 0x300 [] (s.setReg 0 0xFE)))
      (fun t => (t.pc.toNat, t.I.toNat, t.mem.readList 0x300 3)) = some (0x202, 0x300, [2, 5, 4]) ∧
    seen (step (start 0xF033 fun s => withI 0xFFD [] (s.setReg 0 9))) (fun t => t.mem.readList 0xFFD 3) = some [0, 0, 9] ∧
    errorOf (step (start 0xF033 fun s => withI 0xFFE [] (s.setReg 0 9))) = some (.addressError 0x200 0xF033 0x1000) := by
  decide

/-- T166: both values of GLYPH_WRITE_PROTECT. -/
theorem test_ld_b_protection :
    seen (step (start 0xF033 (withRegs [(0, 0x7B)]))) (fun t => t.mem.readList 0 4) = some [1, 2, 3, 0x90] ∧
    errorOf (stepWith { params with glyphWriteProtect := true } (start 0xF033 (withRegs [(0, 0x7B)])))
      = some (.addressError 0x200 0xF033 0) := by decide

/-- T167, T170. -/
theorem test_ld_mem_vx :
    seen (step (start 0xF255 fun s => withI 0x400 [] (withRegs [(0, 0x11), (1, 0x22), (2, 0x33), (3, 0x44)] s)))
      (fun t => (t.pc.toNat, t.I.toNat, t.mem.readList 0x400 4)) = some (0x202, 0x400, [0x11, 0x22, 0x33, 0]) ∧
    errorOf (step (start 0xFF55 (withI 0xFF1 []))) = some (.addressError 0x200 0xFF55 0x1000) := by decide

/-- T176: an instruction overwrites itself; a later fetch reads the new word. -/
theorem test_ld_mem_vx_self :
    seen (step (start 0xF155 fun s => withI 0x200 [] (s.setReg 0 0x12))) (fun t => (t.pc.toNat, (t.jump 0x200).fetchWord))
      = some (0x202, 0x1200) := by decide

/-- T172, T175. -/
theorem test_ld_vx_mem :
    seen (step (start 0xF265 fun s => withI 0x300 [2, 5, 4] (s.setReg 3 0x99)))
      (fun t => (t.pc.toNat, t.I.toNat, t.firstRegs 4)) = some (0x202, 0x300, [2, 5, 4, 0x99]) ∧
    errorOf (step (start 0xF165 (withI 0xFFFF []))) = some (.addressError 0x200 0xF165 0x10000) := by decide

/-! ### Display -/

/-- T180. -/
theorem test_cls :
    seen (step (start 0x00E0 fun s => withPixel 100 (withPixel 2047 (s.setReg 15 1)))) (fun t => (pcAnd 15 0 t, lit t))
      = some ((0x202, 1, 0), []) := by decide +kernel

/-- T183, T185: wrap on both edges; collision. -/
theorem test_drw :
    seen (step (start 0xD121 fun s => withI 0x300 [0xC3] (withRegs [(1, 62), (2, 31)] s))) (fun t => (pcAnd 15 1 t, lit t))
      = some ((0x202, 0, 62), [1988, 1989, 2046, 2047]) ∧
    seen (step (start 0xD121 fun s => withPixel 0 (withI 0x300 [0xC0] s))) (fun t => (pcAnd 15 1 t, lit t))
      = some ((0x202, 1, 0), [1]) := by decide +kernel

/-- T189, T192, T195: height 0 reads no memory; out of memory; VF as a coordinate. -/
theorem test_drw_corners :
    seen (step (start 0xD120 fun s => { s.setReg 15 1 with I := 0x1234 })) (fun t => (pcAnd 15 1 t, lit t))
      = some ((0x202, 0, 0), []) ∧
    errorOf (step (start 0xD122 (withI 0xFFF [0x80]))) = some (.addressError 0x200 0xD122 0x1000) ∧
    seen (step (start 0xDF21 fun s => withI 0x300 [0x80] (s.setReg 15 3))) (fun t => (pcAnd 15 1 t, lit t))
      = some ((0x202, 0, 0), [3]) := by decide +kernel

/-! ### Host transactions -/

/-- T9. -/
theorem test_tick :
    ((tickTimers { State.reset with dt := 2, st := 1 }).dt, (tickTimers { State.reset with dt := 2, st := 1 }).st) = (1, 0) ∧
    (tickTimers State.reset).dt = 0 := by decide

/-- 00_scope.md R8: a run under another glyph table and SHIFT_SRC = Y. A reset installs the table; T112 under that value. -/
theorem test_system_parameters :
    let p : Params := { params with glyphTable := List.replicate 80 0xAA, shiftSrc := .Y }
    (System.afterReset p).machine.mem.readList 0x4E 4 = [0xAA, 0xAA, 0, 0] ∧
    (match System.apply .step ⟨start 0x8126 (withRegs [(1, 5), (2, 8)]), .loaded, p⟩ with
      | .ok (z, .ok) => some (pcAnd 1 15 z.machine)
      | _ => none) = some (0x202, 4, 0) := by decide +kernel

/-- T202. -/
theorem test_load :
    (load [0x12, 0x00] State.reset).map (fun t => (t.pc.toNat, t.mem.readList 0x200 3)) = .ok (0x200, [0x12, 0, 0]) := by
  decide +kernel

/-! ### Witnesses: for each obligation with hypotheses a state and operands that meet them, at the boundary values of each
clause -/

/-- The default system before its first step, and one at other parameters: VY shifted, glyphs protected. -/
def sys (p : Params := params) : System := ⟨State.reset, .fresh, p⟩

/-- An answer is a next state. -/
def isNext (r : StepResult) : Bool := (seen r fun _ => ()).isSome

theorem isNext_exists {r : StepResult} (h : isNext r = true) : ∃ t, r = .next t := by
  cases r with
  | next t => exact ⟨t, rfl⟩
  | fault _ => exact absurd h (by simp [isNext, seen])
  | refused _ => exact absurd h (by simp [isNext, seen])

theorem witness_DecodeEncodeRoundTrip : (Instr.drw 15 0 15).WellFormed ∧ (Instr.jp 0xFFF).WellFormed := by decide

theorem witness_DecoderFollowsOpcodeTable : decodeWord 0x812E = some (.shl 1 2) ∧ decodeWord 0x812F = none := by decide

theorem witness_StepRunsDecodedInstruction :
    let s := start 0x12F0 fun s => { s with pc := 0xFFE }
    s.pc.toNat ≤ 0xFFE ∧ decode [s.mem.read s.pc.toNat, s.mem.read (s.pc.toNat + 1)] = .ok (.jp 0x2F0, []) ∧
      (Instr.jp 0x2F0).WellFormed ∧ ∃ t, stepWith params s = .next t :=
  ⟨by decide, rfl, by decide, isNext_exists (by decide)⟩

theorem witness_StepRunsPlacedWord : decodeTableWord 16 0xD12F = some (.drw 1 2 15) := by decide

theorem witness_InstructionErrorsExactly :
    ownError 0xD12F (.drw 1 2 15) { State.reset with I := 0xFF2 } = some (.addressError 0x200 0xD12F 0x1000) ∧
    ownError 0xD12F (.drw 1 2 15) { State.reset with I := 0xFF1 } = none ∧
    ownError 0xE49E (.skp 4) (State.reset.setReg 4 16) = some (.keyIndexError 0x200 16) ∧
    ownError 0xE49E (.skp 4) (State.reset.setReg 4 15) = none := by decide

theorem witness_StepErrorsExactly :
    stepError { State.reset with pc := 0xFFF } = some (.fetchError 0xFFF) ∧
    stepError State.reset = some (.decodeError 0x200 0) ∧ stepError (start 0x00EE) = some (.stackUnderflow 0x200) ∧
    stepError (start 0x12F0 fun s => { s with pc := 0xFFE }) = none := by decide

theorem witness_PcUpdateTable :
    (∃ t, exec (.jp 0x2F0) State.reset = .next t) ∧
    (∃ t, execWith { params with shiftSrc := .Y } (.shr 1 2) State.reset = .next t) ∧
    stepWith sys.params sys.machine = .fault (.decodeError 0x200 0) := ⟨⟨_, rfl⟩, ⟨_, rfl⟩, rfl⟩

theorem witness_InstructionFrames :
    (∃ t, exec (.ldVxK 1) (State.reset.setKeyState 15 true) = .next t) ∧
    (∃ t, exec (.ldB 0) { State.reset with I := 0xFFD } = .next t) ∧
    ∃ t, exec (.call 0xFFF) { State.reset with sp := 15 } = .next t :=
  ⟨isNext_exists (by decide), isNext_exists (by decide), isNext_exists (by decide)⟩

theorem witness_FlagIsZeroOrOne :
    writesFlag (.addReg 15 1) ∧ (∃ t, exec (.addReg 15 1) State.reset = .next t) ∧ writesFlag (.drw 1 2 0) ∧
    ∃ t, exec (.drw 1 2 0) { State.reset with I := 0xFFFF } = .next t :=
  ⟨trivial, ⟨_, rfl⟩, trivial, isNext_exists (by decide)⟩

/-- The dump stores at the address that is fetched next: its byte 0 is the high byte, its byte 1 the low one. -/
theorem witness_StoreSeenByNextFetch :
    let s := { State.reset with I := 0x202 }
    seen (exec (.ldMemVx 1) s) (fun t => (t.pc.toNat == s.I.toNat + (0 : Reg).val, t.pc.toNat + 1 == s.I.toNat + (1 : Reg).val))
      = some (true, true) ∧ (0 : Reg) ≤ 1 := by decide

/-- A state with the invariant whose step answers a next state, here the furthest jump. -/
theorem witness_StepKeepsInvariant :
    (start 0xBFFF (withRegs [(0, 0xFF)])).Inv ∧ ∃ t, step (start 0xBFFF (withRegs [(0, 0xFF)])) = .next t :=
  ⟨⟨by decide, by decide, by decide⟩, isNext_exists (by decide)⟩

theorem witness_RunKeepsInvariant :
    State.reset.Inv ∧ ∃ z rs, System.run [.load [0x60, 0x07], .step, .setKey 15 true, .tickTimers, .reset]
      sys = .ok (z, rs) := ⟨⟨by decide, by decide, by decide⟩, ⟨_, _, rfl⟩⟩

theorem witness_MemoryIsDeterminedByReads :
    Memory.wf [(0x300, 7)] ∧ ∀ a < 4096, Memory.read [(0x300, 7)] a = Memory.read [(0x300, 7)] a :=
  ⟨by decide, fun _ _ => rfl⟩

theorem witness_ResetForEveryGlyphTable : (List.replicate 80 (0xFF : Byte)).length = 80 := by decide

theorem witness_ReturnPopsAndAddsTwo :
    State.reset.sp.val = 0 ∧ 0 < ({ State.reset with sp := 1 } : State).sp.val ∧
    0 < ({ State.reset with sp := 16 } : State).sp.val ∧ ({ State.reset with sp := 16 } : State).Inv :=
  ⟨by decide, by decide, by decide, ⟨by decide, by decide, by decide⟩⟩

theorem witness_JumpSetsPc : State.reset.pc.toNat = (0x200 : Addr12).toNat := by decide

theorem witness_CallPushesItsOwnAddress :
    ({ State.reset with sp := 16 } : State).sp.val = 16 ∧ ({ State.reset with sp := 15 } : State).sp.val < 16 ∧
    State.reset.sp.val < 16 := by decide

theorem witness_SkipsOnImmediate : State.reset.reg 1 = 0 ∧ State.reset.reg 1 ≠ 1 := by decide

theorem witness_SkipsOnRegisters :
    State.reset.reg 1 = State.reset.reg 2 ∧ (State.reset.setReg 1 5).reg 1 ≠ (State.reset.setReg 1 5).reg 2 := by decide

theorem witness_CallThenReturnResumesAfterCall :
    ∃ t u : State, exec (.call 0x300) State.reset = .next t ∧ u.stack = t.stack ∧ u.sp = t.sp ∧ u.reg 1 ≠ t.reg 1 :=
  ⟨_, (({ State.reset with stack := State.reset.stack.set 0 0x200, sp := 1 } : State).jump 0x300).setReg 1 9, rfl, rfl, rfl,
    by decide⟩

theorem witness_ReturnTargetIsBounded :
    let s : State := { State.reset with sp := 16, stack := State.reset.stack.set 15 0xFFE }
    s.Inv ∧ ∃ t, exec .ret s = .next t := ⟨⟨by decide, by decide, by decide⟩, isNext_exists (by decide)⟩

theorem witness_RandomUnderMask : (0x07 : Byte) &&& ~~~0x0F = 0 ∧ (0x0F : Byte) &&& ~~~0x0F = 0 := by decide

theorem witness_AddSetsCarry :
    (1 : Reg) ≠ VF ∧ ¬ 255 < ((State.reset.setReg 1 0xFF).reg 1).toNat + ((State.reset.setReg 1 0xFF).reg 2).toNat ∧
    255 < (((State.reset.setReg 1 0xFF).setReg 2 1).reg 1).toNat + (((State.reset.setReg 1 0xFF).setReg 2 1).reg 2).toNat := by
  decide

theorem witness_SubtractionsSetNotBorrow : (0 : Reg) ≠ VF ∧ (14 : Reg) ≠ VF := by decide

theorem witness_ShiftsByOne : (14 : Reg) ≠ VF ∧ params.shiftSrc = .X := by decide

theorem witness_KeySkips :
    0xF < ((State.reset.setReg 4 16).reg 4).toNat ∧ ((State.reset.setReg 4 15).reg 4).toNat = (15 : Fin 16).val ∧
    ((State.reset.setReg 4 15).setKeyState 15 true).keyDown 15 = true ∧ State.reset.keyDown 15 = false := by decide

theorem witness_KeyWaitStallsOrTakesLowestKey :
    (∀ k, State.reset.keyDown k = false) ∧ (State.reset.setKeyState 15 true).keyDown 15 = true ∧
    (∀ j < 15, (State.reset.setKeyState 15 true).keyDown j = false) ∧ (State.reset.setKeyState 0 true).keyDown 0 = true ∧
    ∀ j < 0, (State.reset.setKeyState 0 true).keyDown j = false := by decide

theorem witness_StallLastsUntilKeyPress :
    let y : System := ⟨start 0xF30A fun s => { s with dt := 2 }, .running, { params with shiftSrc := .Y }⟩
    let ts : List Transaction := [.step, .tickTimers, .setKey 3 false, .frameBuffer, .step]
    y.machine.pc.toNat ≤ 0xFFE ∧ decodeWord y.machine.fetchWord = some (.ldVxK 3) ∧
      (∀ k, y.machine.keyDown k = false) ∧ (∀ t ∈ ts, t.PressesNoKey) ∧ ∃ z rs, System.run ts y = .ok (z, rs) :=
  ⟨by decide, by decide, by decide, by simp [Transaction.PressesNoKey], ⟨_, _, rfl⟩⟩

theorem witness_AddToAddressRegister :
    (∀ rule : AddiFlag, ({ params with addiFlag := rule } : Params).addiFlag = rule) ∧
    0xFF < ({ State.reset.setReg 2 1 with I := 0xFF } : State).I.toNat + ((State.reset.setReg 2 1).reg 2).toNat ∧
    ¬ 0xFF < ({ State.reset with I := 0xFF } : State).I.toNat + (State.reset.reg 2).toNat := ⟨fun _ => rfl, by decide, by decide⟩

theorem witness_DecimalDigitsStored :
    0xFFF < ({ State.reset with I := 0xFFE } : State).I.toNat + 2 ∧
    ({ State.reset with I := 0xFFD } : State).I.toNat + 2 ≤ 0xFFF := by decide

theorem witness_RegisterDumpStoresInclusive :
    0xFFF < ({ State.reset with I := 0xFF1 } : State).I.toNat + (15 : Reg).val ∧
    ({ State.reset with I := 0xFF0 } : State).I.toNat + (15 : Reg).val ≤ 0xFFF ∧
    ({ State.reset with I := 0xFFF } : State).I.toNat + (0 : Reg).val ≤ 0xFFF := by decide

theorem witness_RegisterLoadReadsInclusive :
    0xFFF < ({ State.reset with I := 0xFF1 } : State).I.toNat + (15 : Reg).val ∧
    ({ State.reset with I := 0xFF0 } : State).I.toNat + (15 : Reg).val ≤ 0xFFF ∧
    ∃ t u : State, exec (.ldMemVx 0) { State.reset with I := 0xFFF } = .next t ∧ u.mem = t.mem ∧ u.I = t.I ∧
      u.reg 0 ≠ t.reg 0 :=
  ⟨by decide, by decide, _, ({ State.reset with I := 0xFFF } : State).setReg 0 9, rfl, by decide, by decide, by decide⟩

theorem witness_GlyphWriteProtection :
    ({ params with glyphWriteProtect := true } : Params).glyphWriteProtect = true ∧
    (∃ t, execWith { params with glyphWriteProtect := true } (.ldB 0) { State.reset with I := 0x050 } = .next t) ∧
    ({ State.reset with I := 0x04F } : State).I.toNat ≤ 0x04F ∧ 0x04F < ({ State.reset with I := 0x050 } : State).I.toNat :=
  ⟨rfl, isNext_exists (by decide), by decide, by decide⟩

/-- Both outcomes, at both ends of the range, and a sprite that covers a set pixel and one that does not. -/
theorem witness_DrawFlipsExactlyTheCoveredPixels :
    (0 < (15 : Nibble).val ∧ 0xFFF < ({ State.reset with I := 0xFF2 } : State).I.toNat + (15 : Nibble).val - 1) ∧
    ({ State.reset with I := 0xFF1 } : State).I.toNat + (15 : Nibble).val - 1 ≤ 0xFFF ∧ (0 : Nibble).val = 0 ∧
    Collides (withPixel 0 (withI 0x300 [0x80] State.reset)) 0 0 1 ∧ ¬ Collides State.reset 0 0 0 :=
  ⟨by decide, by decide, rfl, ⟨0, 0, ⟨0, 0, by decide, by decide, by decide, rfl, rfl⟩, by decide +kernel⟩,
    fun ⟨_, _, ⟨_, _, h, _⟩, _⟩ => Nat.not_lt_zero _ h⟩

theorem witness_DrawTwiceRestoresPixels :
    let s := withI 0xFFF [0x80] State.reset
    (∃ t u : State, exec (.drw 1 2 1) s = .next t ∧ u.fb = t.fb ∧ u.mem = t.mem ∧ u.I = t.I ∧ u.reg 1 = s.reg 1 ∧
      u.reg 2 = s.reg 2) ∧
    (∀ i : Fin 2048, s.fb[i.val] = false) ∧ ∃ cx cy, Covered s ((s.reg 1).toNat % 64) ((s.reg 2).toNat % 32) 1 cx cy := by
  intro s
  obtain ⟨t, h⟩ := isNext_exists (r := exec (.drw 1 2 1) s) (by decide)
  exact ⟨⟨t, { t with regs := s.regs }, h, rfl, rfl, rfl, rfl, rfl⟩, fun i => by simp [s, withI, State.reset], 0, 0, 0, 0,
    by decide, by decide, by decide, by decide, by decide⟩

theorem witness_ClearThenDrawShowsSprite :
    ∃ t u : State, exec .cls (withI 0x300 [0xA0, 0x40] State.reset) = .next t ∧ exec (.drw 1 2 2) t = .next u :=
  ⟨_, (isNext_exists (r := exec (.drw 1 2 2) _) (by decide)).imp fun _ h => ⟨rfl, h⟩⟩

theorem witness_SetKeyWritesOneKey : (0 : Nat) ≤ 15 ∧ (15 : Nat) ≤ 15 ∧ 15 < 16 := by decide

theorem witness_FrameBufferIsReadOnlySnapshot : (63 : Nat) < 64 ∧ (31 : Nat) < 32 := by decide

theorem witness_LoadInstallsImage :
    (List.replicate 3584 (1 : Byte)).length ≤ 3584 ∧ 3584 < (List.replicate 3585 (1 : Byte)).length := by
  simp only [List.length_replicate]; omega

theorem witness_LoadOnlyOnceBeforeFirstStep :
    (Transaction.reset ∉ [Transaction.load [1], .step] ∧ (Transaction.step ∈ [Transaction.load [1], .step]) ∧
      ∃ z rs, System.run [.load [1], .step] sys = .ok (z, rs)) ∧
    ((∃ im, Transaction.load im ∈ [Transaction.load [1]]) ∧ ∃ z rs, System.run [.load [1]] sys = .ok (z, rs)) ∧
    ((∀ t ∈ [Transaction.tickTimers, .setKey 15 true, .frameBuffer], t.Harmless) ∧
      ∃ z rs, System.run [.reset, .tickTimers, .setKey 15 true, .frameBuffer] sys = .ok (z, rs)) ∧
    sys.phase = .fresh ∧ (∃ s, load [1] sys.machine = .ok s) ∧
    ∃ f, load (List.replicate 3585 0) sys.machine = .error f :=
  ⟨⟨by decide, by decide, ⟨_, _, rfl⟩⟩, ⟨⟨[1], by simp⟩, ⟨_, _, rfl⟩⟩, ⟨by simp [Transaction.Harmless], ⟨_, _, rfl⟩⟩, rfl,
    ⟨_, rfl⟩, ⟨_, if_neg (by simp only [ImageFits, maxImage, List.length_replicate]; omega)⟩⟩

theorem witness_ErrorLeavesMachineUnchanged :
    ∃ z f, System.apply .step sys = .ok (z, .error f) := ⟨_, _, rfl⟩

theorem witness_StepErrorRepeats :
    let ts : List Transaction := [.step, .tickTimers, .setKey 15 true, .frameBuffer]
    (∀ t ∈ ts, t.Ordinary) ∧ stepWith sys.params sys.machine = .fault (.decodeError 0x200 0) ∧
      ∃ z rs, System.run ts sys = .ok (z, rs) :=
  ⟨by simp [Transaction.Ordinary], rfl, ⟨_, _, rfl⟩⟩

theorem witness_MachineRunsAtDefaultParameters : ¬ readsParameter (.drw 1 2 3) := id

/-- A run that loads and steps under other parameters. -/
theorem witness_ParametersFixedForRun :
    ∃ z rs, System.run [.load [0x60, 0x07], .step, .reset] (sys { params with glyphWriteProtect := true }) = .ok (z, rs) :=
  ⟨_, _, rfl⟩

end Sys2Proof.Tests
end

section
/-! PROOFS. The parameters of 00_scope.md R8: the instructions that read none, the machine at the defaults, and the
parameters of a system along a run. -/

namespace Sys2Proof.Machine

/-! ### The machine at the defaults -/

theorem execWith_of_not_readsParameter (p : Params) {i : Instr} (s : State) (h : ¬ readsParameter i) :
    execWith p i s = exec i s := by
  cases i with
  | shr | shl | addI | ldB | ldMemVx => exact absurd trivial h
  | _ => rfl

/-- The meanings that read a parameter are defined at its default; the others do not see the parameters. -/
@[simp] theorem execWith_params (i : Instr) (s : State) : execWith params i s = exec i s := by
  cases i with
  | shr | shl | addI | ldB | ldMemVx => rfl
  | _ => exact execWith_of_not_readsParameter params s id

@[simp] theorem stepWith_params (s : State) : stepWith params s = step s := by
  unfold stepWith step
  cases fetchDecode s with
  | error f => rfl
  | ok i => exact execWith_params i s

/-- Settles O47: the five instructions that read a parameter are defined at its default, the other 29 read none. -/
theorem machineRunsAtDefaultParameters : Obligations.MachineRunsAtDefaultParameters :=
  ⟨fun i s => (execWith_params i s).symm, fun s => (stepWith_params s).symm,
    fun p _ s h => execWith_of_not_readsParameter p s h, rfl, rfl, rfl⟩

/-! ### The parameters along a run -/

/-- What every transaction of a defined run keeps, the run keeps. -/
theorem System.run_keeps {P : System → Prop} {ts : List Transaction} {y z : System} {rs : List Reply}
    (hkeep : ∀ t ∈ ts, ∀ (u v : System) (r : Reply), System.apply t u = .ok (v, r) → P u → P v)
    (h : System.run ts y = .ok (z, rs)) (hy : P y) : P z := by
  induction ts generalizing y rs with
  | nil =>
    cases h
    exact hy
  | cons t ts ih =>
    obtain ⟨y', r, rs', happly, hrun, -⟩ := System.run_cons h
    have hy' : P y' := hkeep t (by simp) y y' r happly hy
    exact ih (fun t' ht' => hkeep t' (by simp [ht'])) hrun hy'

theorem System.apply_params {t : Transaction} {y z : System} {r : Reply} (h : System.apply t y = .ok (z, r)) :
    z.params = y.params := by
  cases t with
  | reset | tickTimers | frameBuffer =>
    cases h
    rfl
  | load image =>
    simp only [System.apply] at h
    split at h
    · split at h
      · cases h
        rfl
      · cases h
        rfl
    · cases h
  | step =>
    simp only [System.apply] at h
    split at h
    · cases h
      rfl
    · cases h
      rfl
    · cases h
  | setKey index pressed =>
    simp only [System.apply] at h
    split at h
    · cases h
      rfl
    · cases h

/-- Settles O59: by induction on the list of transactions, each of which keeps the parameters. -/
theorem parametersFixedForRun : Obligations.ParametersFixedForRun := by
  intro ts y z rs h
  refine System.run_keeps (P := fun u => u.params = y.params) ?_ h rfl
  intro t _ u v r happly hu
  exact (System.apply_params happly).trans hu

end Sys2Proof.Machine
end

section
/-! PROOFS. The completed instruction, said once for each instruction that has a check of its own or waits: a meaning that
answers a next state answers this one. The other meanings are one equation without a check. -/

namespace Sys2Proof.Machine

variable {s t : State}

theorem exec_ret_next (h : exec .ret s = .next t) :
    ∃ hsp : 0 < s.sp.val,
      t = State.jump { s with sp := ⟨s.sp.val - 1, by omega⟩ } (s.stack[s.sp.val - 1]'(by omega) + 2) := by
  rcases exec_ret_cases s with ⟨-, e⟩ | ⟨hsp, e⟩ <;> rw [e] at h <;> cases h
  exact ⟨hsp, rfl⟩

theorem exec_call_next {nnn : Addr12} (h : exec (.call nnn) s = .next t) :
    ∃ hsp : s.sp.val < 16,
      t = State.jump { s with stack := s.stack.set s.sp.val s.pc, sp := ⟨s.sp.val + 1, by omega⟩ } (zextAddr nnn) := by
  rcases exec_call_cases nnn s with ⟨-, e⟩ | ⟨hsp, e⟩ <;> rw [e] at h <;> cases h
  exact ⟨hsp, rfl⟩

theorem exec_drw_next {x y : Reg} {n : Nibble} (h : exec (.drw x y n) s = .next t) :
    t = ({ s with fb := (drawing x y n s).1 }.setFlag (drawing x y n s).2).advance := by
  rcases exec_drw_cases x y n s with ⟨-, e⟩ | ⟨-, e⟩ <;> rw [e] at h <;> cases h
  rfl

theorem exec_skp_next {x : Reg} (h : exec (.skp x) s = .next t) :
    ∃ hk : (s.reg x).toNat < 16, t = s.skipIf (s.keyDown ⟨(s.reg x).toNat, hk⟩) := by
  rcases keyIndex_cases (s.reg x) with ⟨-, e⟩ | ⟨hk, e⟩ <;> simp only [exec, execSkp, e, raise] at h <;> cases h
  exact ⟨hk, rfl⟩

theorem exec_sknp_next {x : Reg} (h : exec (.sknp x) s = .next t) :
    ∃ hk : (s.reg x).toNat < 16, t = s.skipIf (!s.keyDown ⟨(s.reg x).toNat, hk⟩) := by
  rcases keyIndex_cases (s.reg x) with ⟨-, e⟩ | ⟨hk, e⟩ <;> simp only [exec, execSknp, e, raise] at h <;> cases h
  exact ⟨hk, rfl⟩

/-- LD Vx, K stalls in the same state while no key is down; else it takes the lowest pressed key and clears it. -/
theorem exec_ldVxK_next {x : Reg} (h : exec (.ldVxK x) s = .next t) :
    ((∀ k, s.keyDown k = false) ∧ t = s) ∨
    ∃ k, s.firstPressed = some k ∧ s.keyDown k = true ∧
      t = ((s.setReg x (BitVec.ofNat 8 k.val)).setKeyState k false).advance := by
  rcases s.firstPressed_cases with ⟨hno, e⟩ | ⟨k, e, hk, -⟩ <;> simp only [exec, execLdVxK, e] at h <;> cases h
  · exact .inl ⟨hno, rfl⟩
  · exact .inr ⟨k, e, hk, rfl⟩

theorem ldBWith_next {protect : Bool} {x : Reg} (h : ldBWith protect x s = .next t) :
    s.I.toNat + 2 ≤ 0xFFF ∧ t = s.storeAtI (bcdDigits (s.reg x)) := by
  rcases ldBWith_cases protect x s with ⟨f, -, e⟩ | ⟨hchk, e⟩ <;> rw [e] at h <;> cases h
  obtain ⟨hfits, -⟩ := (storeError_eq_none protect _ 2 s).1 hchk
  exact ⟨hfits, rfl⟩

theorem ldMemVxWith_next {protect : Bool} {x : Reg} (h : ldMemVxWith protect x s = .next t) :
    s.I.toNat + x.val ≤ 0xFFF ∧ t = s.storeAtI (s.firstRegs (x.val + 1)) := by
  rcases ldMemVxWith_cases protect x s with ⟨f, -, e⟩ | ⟨hchk, e⟩ <;> rw [e] at h <;> cases h
  obtain ⟨hfits, -⟩ := (storeError_eq_none protect _ x.val s).1 hchk
  exact ⟨hfits, rfl⟩

theorem exec_ldVxMem_next {x : Reg} (h : exec (.ldVxMem x) s = .next t) :
    t = { s with regs := loadRegs s.mem s.I.toNat (x.val + 1) s.regs }.advance := by
  rcases exec_ldVxMem_cases x s with ⟨-, e⟩ | ⟨-, e⟩ <;> rw [e] at h <;> cases h
  rfl

end Sys2Proof.Machine
end

section
/-! PROOFS. The pc after every instruction: the table of 10_state.md R29. -/

namespace Sys2Proof.Machine

/-- A fact about "the key that the register value names" is one about that key. -/
theorem exists_key_val_eq {v : Nat} (hv : v < 16) (P : Fin 16 → Prop) : (∃ k : Fin 16, k.val = v ∧ P k) ↔ P ⟨v, hv⟩ :=
  ⟨fun ⟨k, hk, hP⟩ => by subst hk; exact hP, fun hP => ⟨⟨v, hv⟩, rfl, hP⟩⟩

/-- The pc table of 10_state.md R29, under any parameters. -/
theorem execWith_pc {p : Params} {i : Instr} {s t : State} (h : execWith p i s = .next t) : t.pc = nextPc i s := by
  cases i with
  | ret =>
    obtain ⟨hsp, rfl⟩ := exec_ret_next h
    rfl
  | call nnn =>
    obtain ⟨hsp, rfl⟩ := exec_call_next h
    rfl
  | seImm | sneImm | seReg | sneReg =>
    cases h
    simp [nextPc]
  | skp x =>
    obtain ⟨hk, rfl⟩ := exec_skp_next h
    simp only [nextPc, exists_key_val_eq hk, State.skipIf_pc]
  | sknp x =>
    obtain ⟨hk, rfl⟩ := exec_sknp_next h
    simp only [nextPc, exists_key_val_eq hk, State.skipIf_pc, Bool.not_eq_true']
  | ldVxK x =>
    rcases exec_ldVxK_next h with ⟨hno, rfl⟩ | ⟨k, -, hk, rfl⟩
    · simp [nextPc, hno]
    · simp only [nextPc, if_pos (⟨k, hk⟩ : ∃ k, s.keyDown k = true)]
      rfl
  | drw x y n =>
    obtain rfl := exec_drw_next h
    rfl
  | ldB x =>
    obtain ⟨-, rfl⟩ := ldBWith_next h
    rfl
  | ldMemVx x =>
    obtain ⟨-, rfl⟩ := ldMemVxWith_next h
    rfl
  | ldVxMem x =>
    obtain rfl := exec_ldVxMem_next h
    rfl
  | cls | jp | jpV0 | ldImm | addImm | ldReg | orReg | andReg | xorReg | addReg | sub | shr | subn | shl | ldI | rnd
  | ldVxDt | ldDtVx | ldStVx | addI | ldF =>
    cases h
    rfl

/-- A step that reports an error leaves the machine as it was (60_exceptions.md R250). -/
theorem System.apply_step_fault {y : System} {f : Fault} (h : stepWith y.params y.machine = .fault f) :
    System.apply .step y = .ok (⟨y.machine, .running, y.params⟩, .error f) := by
  simp only [System.apply, h]

/-- Settles O9: the pc table instruction by instruction, and the machine an error leaves. -/
theorem pcUpdateTable : Obligations.PcUpdateTable :=
  ⟨fun i s _ h => execWith_pc (p := params) ((execWith_params i s).trans h), fun _ _ _ _ h => execWith_pc h,
    fun _ _ h => ⟨_, System.apply_step_fault h, rfl⟩⟩

end Sys2Proof.Machine
end

section
/-! PROOFS. Frames: what each named update of the state changes, and from these what each instruction may change. -/

namespace Sys2Proof.Machine

/-! ### The frame of each update -/

namespace Frame

variable {w : MayChange} {s t u : State}

theorem refl (w : MayChange) (s : State) : Frame w s s := by
  constructor <;> intros <;> rfl

theorem trans (h₁ : Frame w s t) (h₂ : Frame w t u) : Frame w s u where
  regs r hr := (h₂.regs r hr).trans (h₁.regs r hr)
  cells a ha := (h₂.cells a ha).trans (h₁.cells a ha)
  index hI := (h₂.index hI).trans (h₁.index hI)
  slots j hj := (h₂.slots j hj).trans (h₁.slots j hj)
  pointer hsp := (h₂.pointer hsp).trans (h₁.pointer hsp)
  delay hdt := (h₂.delay hdt).trans (h₁.delay hdt)
  sound hst := (h₂.sound hst).trans (h₁.sound hst)
  keys k hk := (h₂.keys k hk).trans (h₁.keys k hk)
  pixels hfb := (h₂.pixels hfb).trans (h₁.pixels hfb)
  draws hd := (h₂.draws hd).trans (h₁.draws hd)

/-- The pc is in no frame: what leaves a frame may also move the pc. -/
theorem withPc (h : Frame w s t) (v : Word) : Frame w s { t with pc := v } := h.trans (by constructor <;> intros <;> rfl)

theorem advance (h : Frame w s t) : Frame w s t.advance := h.withPc _

theorem skipIf (h : Frame w s t) (c : Bool) : Frame w s (t.skipIf c) := h.withPc _

theorem jump (h : Frame w s t) (v : Word) : Frame w s (t.jump v) := h.withPc _

theorem setReg (h : Frame w s t) {r : Reg} (hr : w.reg r) (v : Byte) : Frame w s (t.setReg r v) :=
  h.trans { refl w t with
    regs := fun q hq => by rw [State.reg_setReg, if_neg fun e : q = r => hq (e ▸ hr)] }

theorem setFlag (h : Frame w s t) (hVF : w.reg VF) (f : Bool) : Frame w s (t.setFlag f) := h.setReg hVF _

theorem writeFlagged (h : Frame w s t) {x : Reg} (hx : w.reg x) (hVF : w.reg VF) (r : Byte × Bool) :
    Frame w s (t.writeFlagged x r) := ((h.setReg hx r.1).setFlag hVF r.2).advance

theorem setKeyState (h : Frame w s t) {k : Fin 16} (hk : w.key k) (b : Bool) : Frame w s (t.setKeyState k b) :=
  h.trans { refl w t with
    keys := fun j hj => by rw [State.keyDown_setKeyState, if_neg fun e : j = k => hj (e ▸ hk)] }

theorem withI (h : Frame w s t) (hI : w.I) (v : Word) : Frame w s { t with I := v } :=
  h.trans { refl w t with index := fun hn => absurd hI hn }

theorem withDt (h : Frame w s t) (hdt : w.dt) (v : Byte) : Frame w s { t with dt := v } :=
  h.trans { refl w t with delay := fun hn => absurd hdt hn }

theorem withSt (h : Frame w s t) (hst : w.st) (v : Byte) : Frame w s { t with st := v } :=
  h.trans { refl w t with sound := fun hn => absurd hst hn }

theorem withPixels (h : Frame w s t) (hfb : w.pixels) (v : Pixels) : Frame w s { t with fb := v } :=
  h.trans { refl w t with pixels := fun hn => absurd hfb hn }

theorem withDraws (h : Frame w s t) (hd : w.draws) (n : Nat) : Frame w s { t with draws := n } :=
  h.trans { refl w t with draws := fun hn => absurd hd hn }

theorem withSp (h : Frame w s t) (hsp : w.sp) (n : Fin 17) : Frame w s { t with sp := n } :=
  h.trans { refl w t with pointer := fun hn => absurd hsp hn }

/-- Bytes stored from I upwards change no cell outside the range they fill. -/
theorem storeAtI {bytes : List Byte} (h : ∀ a, s.I.toNat ≤ a → a < s.I.toNat + bytes.length → w.cell a) :
    Frame w s (s.storeAtI bytes) :=
  (refl w s).trans { refl w s with
    cells := fun a ha => by
      rw [State.storeAtI_mem, Memory.read_writeList]
      split
      · next hle =>
        have hout : bytes.length ≤ a - s.I.toNat := by
          by_contra hin
          exact ha (h a hle (by omega))
        exact List.getD_eq_default _ _ hout
      · rfl }

theorem withStackSlot (h : Frame w s t) {j : Nat} (hj : j < 16) (hw : w.slot ⟨j, hj⟩) (v : Word) :
    Frame w s { t with stack := t.stack.set j v } :=
  h.trans { refl w t with
    slots := fun k hk => Vector.getElem_set_ne hj k.isLt fun e => hk (by subst e; exact hw) }

theorem loadRegs (h : Frame w s t) {n : Nat} (hw : ∀ r : Reg, r.val < n → w.reg r) (m : Memory) (base : Nat) :
    Frame w s { t with regs := Machine.loadRegs m base n t.regs } :=
  h.trans { refl w t with
    regs := fun r hr => (getElem_loadRegs m base n t.regs r.isLt).trans (if_neg fun hlt => hr (hw r hlt)) }

end Frame

/-! ### The frame of each instruction -/

/-- Every completed instruction stays within its list, under any parameters. -/
theorem execWith_frame {p : Params} {i : Instr} {s t : State} (h : execWith p i s = .next t) :
    Frame (mayChange i s) s t := by
  have same := Frame.refl (mayChange i s) s
  cases i with
  | cls =>
    cases h
    exact (same.withPixels trivial _).advance
  | ret =>
    obtain ⟨hsp, rfl⟩ := exec_ret_next h
    exact (same.withSp trivial _).jump _
  | call nnn =>
    obtain ⟨hsp, rfl⟩ := exec_call_next h
    exact ((same.withStackSlot hsp rfl _).withSp trivial _).jump _
  | jp | jpV0 =>
    cases h
    exact same.jump _
  | seImm | sneImm | seReg | sneReg =>
    cases h
    exact same.skipIf _
  | skp x =>
    obtain ⟨hk, rfl⟩ := exec_skp_next h
    exact same.skipIf _
  | sknp x =>
    obtain ⟨hk, rfl⟩ := exec_sknp_next h
    exact same.skipIf _
  | ldImm | addImm | ldReg | orReg | andReg | xorReg | ldVxDt =>
    cases h
    exact (same.setReg rfl _).advance
  | addReg | sub | shr | subn | shl =>
    cases h
    exact same.writeFlagged (.inl rfl) (.inr rfl) _
  | ldI | ldF =>
    cases h
    exact (same.withI trivial _).advance
  | rnd x nn =>
    cases h
    exact ((same.withDraws trivial _).setReg rfl _).advance
  | drw x y n =>
    obtain rfl := exec_drw_next h
    exact ((same.withPixels trivial _).setFlag rfl _).advance
  | ldVxK x =>
    rcases exec_ldVxK_next h with ⟨-, rfl⟩ | ⟨k, hfirst, -, rfl⟩
    · exact same
    · exact ((same.setReg rfl _).setKeyState hfirst _).advance
  | ldDtVx x =>
    cases h
    exact (same.withDt trivial _).advance
  | ldStVx x =>
    cases h
    exact (same.withSt trivial _).advance
  | addI x =>
    cases h
    exact ((same.withI trivial _).setFlag rfl _).advance
  | ldB x =>
    obtain ⟨-, rfl⟩ := ldBWith_next h
    exact Frame.storeAtI fun a hle hlt => ⟨hle, Nat.le_of_lt_succ hlt⟩
  | ldMemVx x =>
    obtain ⟨-, rfl⟩ := ldMemVxWith_next h
    refine Frame.storeAtI fun a hle hlt => ⟨hle, ?_⟩
    rw [State.length_firstRegs s (by omega)] at hlt
    omega
  | ldVxMem x =>
    obtain rfl := exec_ldVxMem_next h
    exact (same.loadRegs (fun r hr => Nat.le_of_lt_succ hr) _ _).advance

/-- Settles O10: each meaning is a chain of named updates, each within the instruction's list. -/
theorem instructionFrames : Obligations.InstructionFrames :=
  fun i s _ h => execWith_frame (p := params) ((execWith_params i s).trans h)

/-! ### The flag writers (10_state.md R24) -/

/-- The seven flag writers end alike: the flag into VF as the last write, then the pc. -/
theorem exec_writesFlag {i : Instr} {s t : State} (hi : writesFlag i) (h : exec i s = .next t) :
    ∃ (u : State) (f : Bool), t = (u.setFlag f).advance := by
  cases i with
  | addReg | sub | shr | subn | shl | addI =>
    cases h
    exact ⟨_, _, rfl⟩
  | drw x y n => exact ⟨_, _, exec_drw_next h⟩
  | _ => exact hi.elim

/-- Settles O11: the last register write of each flag writer puts 0 or 1 into VF. -/
theorem flagIsZeroOrOne : Obligations.FlagIsZeroOrOne := by
  intro i s t hi h
  obtain ⟨u, f, rfl⟩ := exec_writesFlag hi h
  rw [State.reg_advance, State.reg_setFlag, if_pos rfl]
  cases f with
  | false => exact .inl rfl
  | true => exact .inr rfl

end Sys2Proof.Machine
end

section
/-! PROOFS. The state after reset, and the invariant along steps and runs. -/

namespace Sys2Proof.Machine

/-! ### Reset (10_state.md R33) -/

theorem resetByte_of_glyphTable_end_le {a : Nat} (h : 0x50 ≤ a) : resetByte a = 0 :=
  List.getD_eq_default _ _ h

/-- Settles O17: the fields of `State.reset`, and memory that lists no cell. -/
theorem resetValues : Obligations.ResetValues := by
  refine ⟨fun a _ => rfl, fun a h _ => resetByte_of_glyphTable_end_le h, fun r => ?_, rfl, rfl, fun j => ?_, rfl, rfl, rfl,
    fun k => ?_, fun i => ?_⟩
  · exact Vector.getElem_replicate r.isLt
  · exact Vector.getElem_replicate j.isLt
  · exact Vector.getElem_replicate k.isLt
  · exact Vector.getElem_replicate i.isLt

/-- Settles O14: no cell is listed, pc is 0x200 and every stack slot is 0. -/
theorem resetHasInvariant : Obligations.ResetHasInvariant where
  memory := State.reset_mem_wf
  pc := by decide
  slots := by decide

/-! ### The invariant under one step -/

/-- The bound of 10_state.md R28: the furthest jump is 0xFFF plus 0xFF. -/
theorem nextPc_le {s : State} (hs : s.Inv) (hpc : s.pc.toNat ≤ 0xFFE) (i : Instr) : (nextPc i s).toNat ≤ 0x10FE := by
  have h2 : (s.pc + 2).toNat ≤ 0x10FE := by bv_omega
  have h4 : (s.pc + 4).toNat ≤ 0x10FE := by bv_omega
  cases i with
  | ret =>
    have hslot : (s.stack[s.sp.val - 1]'(by omega)).toNat ≤ 0xFFE := hs.slots ⟨s.sp.val - 1, by omega⟩
    simp only [nextPc]
    bv_omega
  | jp nnn | call nnn =>
    simp only [nextPc, zextAddr]
    bv_omega
  | jpV0 nnn =>
    simp only [nextPc, zextAddr, zextByte]
    bv_omega
  | seImm | sneImm | seReg | sneReg | skp | sknp =>
    simp only [nextPc]
    split
    · exact h4
    · exact h2
  | ldVxK x =>
    simp only [nextPc]
    split
    · exact h2
    · exact hs.pc
  | _ => exact h2

/-- A completed instruction leaves memory alone or stores bytes from I upwards, all inside the address space. -/
theorem execWith_mem {p : Params} {i : Instr} {s t : State} (h : execWith p i s = .next t) :
    t.mem = s.mem ∨ ∃ bytes : List Byte, s.I.toNat + bytes.length ≤ 4096 ∧ t.mem = s.mem.writeList s.I.toNat bytes := by
  cases i with
  | ldB x =>
    obtain ⟨hfits, rfl⟩ := ldBWith_next h
    exact .inr ⟨bcdDigits (s.reg x), Nat.succ_le_succ hfits, rfl⟩
  | ldMemVx x =>
    obtain ⟨hfits, rfl⟩ := ldMemVxWith_next h
    refine .inr ⟨s.firstRegs (x.val + 1), ?_, rfl⟩
    rw [State.length_firstRegs s (by omega)]
    omega
  | ret =>
    obtain ⟨-, rfl⟩ := exec_ret_next h
    exact .inl rfl
  | call nnn =>
    obtain ⟨-, rfl⟩ := exec_call_next h
    exact .inl rfl
  | skp x =>
    obtain ⟨-, rfl⟩ := exec_skp_next h
    exact .inl rfl
  | sknp x =>
    obtain ⟨-, rfl⟩ := exec_sknp_next h
    exact .inl rfl
  | drw x y n =>
    obtain rfl := exec_drw_next h
    exact .inl rfl
  | ldVxK x =>
    rcases exec_ldVxK_next h with ⟨-, rfl⟩ | ⟨k, -, -, rfl⟩
    · exact .inl rfl
    · exact .inl rfl
  | ldVxMem x =>
    obtain rfl := exec_ldVxMem_next h
    exact .inl rfl
  | _ =>
    cases h
    exact .inl rfl

theorem execWith_mem_wf {p : Params} {i : Instr} {s t : State} (hs : s.mem.wf) (h : execWith p i s = .next t) :
    t.mem.wf := by
  rcases execWith_mem h with hmem | ⟨bytes, hfits, hmem⟩ <;> rw [hmem]
  · exact hs
  · exact Memory.wf_writeList hs _ _ hfits

/-- The only value an instruction writes into a stack slot is its own pc (41_control_flow.md R142): CALL writes it, and no
slot is in the frame of another instruction. -/
theorem execWith_slot {p : Params} {i : Instr} {s t : State} (h : execWith p i s = .next t) (j : Fin 16) :
    t.stack[j.val] = s.stack[j.val] ∨ t.stack[j.val] = s.pc := by
  cases i with
  | call nnn =>
    obtain ⟨hsp, rfl⟩ := exec_call_next h
    simp only [State.jump_stack, Vector.getElem_set]
    split
    · exact .inr rfl
    · exact .inl rfl
  | _ => exact .inl ((execWith_frame h).slots j id)

/-- An instruction that a fetch can reach keeps the invariant: the pc by the table of R29, the slots by the frame, memory by
its one store. -/
theorem execWith_inv {p : Params} {i : Instr} {s t : State} (hs : s.Inv) (hpc : s.pc.toNat ≤ 0xFFE)
    (h : execWith p i s = .next t) : t.Inv where
  memory := execWith_mem_wf hs.memory h
  pc := execWith_pc h ▸ nextPc_le hs hpc i
  slots j := by
    rcases execWith_slot h j with hold | hnew
    · exact hold ▸ hs.slots j
    · exact hnew ▸ hpc

theorem stepWith_inv {p : Params} {s t : State} (hs : s.Inv) (h : stepWith p s = .next t) : t.Inv := by
  obtain ⟨hpc, i, -, hexec⟩ := stepWith_next h
  exact execWith_inv hs hpc hexec

/-- Settles O13: a step is an instruction fetched at most at 0xFFE, and each keeps the invariant. -/
theorem stepKeepsInvariant : Obligations.StepKeepsInvariant :=
  fun s _ hs h => stepWith_inv hs ((stepWith_params s).trans h)

/-! ### The invariant under every transaction -/

theorem resetWith_inv (table : List Byte) : (State.resetWith table).Inv := by
  have hlen : 0 + (table.take 80).length ≤ 4096 := by
    have := List.length_take_le 80 table
    omega
  exact ⟨Memory.wf_writeList State.reset_mem_wf 0 _ hlen, resetHasInvariant.pc, resetHasInvariant.slots⟩

/-- The image that `load` accepts ends at the end of memory (70_reset_and_hazards.md R282). -/
theorem load_inv {image : List Byte} {s t : State} (hs : s.Inv) (h : load image s = .ok t) : t.Inv := by
  unfold load at h
  split at h
  · next hfits =>
    cases h
    exact ⟨Memory.wf_writeList hs.memory _ _ (Nat.add_le_add_left hfits loadAddress), hs.pc, hs.slots⟩
  · cases h

theorem setKey_inv {index : Nat} {pressed : Bool} {s t : State} (hs : s.Inv) (h : setKey index pressed s = some t) :
    t.Inv := by
  unfold setKey at h
  split at h
  · cases h
    exact ⟨hs.memory, hs.pc, hs.slots⟩
  · cases h

theorem System.apply_inv {x : Transaction} {y z : System} {r : Reply} (h : System.apply x y = .ok (z, r))
    (hy : y.machine.Inv) : z.machine.Inv := by
  cases x with
  | reset =>
    cases h
    have hreset := resetWith_inv y.params.glyphTable
    exact ⟨hreset.memory, hreset.pc, hreset.slots⟩
  | load image =>
    simp only [System.apply] at h
    split at h
    · split at h
      · next hload =>
        cases h
        exact load_inv hy hload
      · cases h
        exact hy
    · cases h
  | step =>
    simp only [System.apply] at h
    split at h
    · next hstep =>
      cases h
      exact stepWith_inv hy hstep
    · cases h
      exact hy
    · cases h
  | tickTimers =>
    cases h
    exact ⟨hy.memory, hy.pc, hy.slots⟩
  | setKey index pressed =>
    simp only [System.apply] at h
    split at h
    · next hset =>
      cases h
      exact setKey_inv hy hset
    · cases h
  | frameBuffer =>
    cases h
    exact hy

/-- Settles O15: by induction on the list of transactions, each of which keeps the invariant. -/
theorem runKeepsInvariant : Obligations.RunKeepsInvariant := by
  intro ts y z rs hy h
  refine System.run_keeps (P := fun u => u.machine.Inv) ?_ h hy
  intro x _ u v r happly hu
  exact System.apply_inv happly hu

end Sys2Proof.Machine
end

section
/-! PROOFS. Memory as a function from addresses to bytes: the cells of a canonical memory are read off it (20_memory.md
R71), a fetch sees the bytes a dump has just stored (R74), and GLYPH_WRITE_PROTECT keeps the glyph region (R63). -/

namespace Sys2Proof.Machine

/-! ### A canonical memory lists exactly the cells that read other than at reset -/

theorem Memory.read_of_mem {m : Memory} (h : m.Pairwise (fun c d => c.1 < d.1)) {c : Host.Cell} (hc : c ∈ m) :
    m.read c.1 = c.2 := by
  induction m with
  | nil => cases hc
  | cons d m ih =>
    obtain ⟨hd, hm⟩ := List.pairwise_cons.1 h
    obtain rfl | hc := List.mem_cons.1 hc
    · exact if_pos rfl
    · exact (if_neg (hd c hc).ne').trans (ih hm hc)

/-- A read that differs from the reset contents comes from a listed cell. -/
theorem Memory.mem_of_read_ne {m : Memory} {a : Nat} (h : m.read a ≠ resetByte a) : (a, m.read a) ∈ m := by
  induction m with
  | nil => exact absurd rfl h
  | cons d m ih =>
    obtain ⟨b, v⟩ := d
    simp only [Memory.read] at h ⊢
    split at h
    · next hab => simp [hab]
    · next hab =>
      rw [if_neg hab]
      exact List.mem_cons_of_mem _ (ih h)

theorem Memory.mem_iff {m : Memory} (h : m.wf) {c : Host.Cell} :
    c ∈ m ↔ c.1 < 4096 ∧ c.2 ≠ resetByte c.1 ∧ m.read c.1 = c.2 := by
  obtain ⟨hsorted, hcells⟩ := h
  constructor
  · intro hc
    obtain ⟨hlt, hne⟩ := hcells c hc
    exact ⟨hlt, hne, Memory.read_of_mem hsorted hc⟩
  · rintro ⟨-, hne, hread⟩
    have hmem : (c.1, m.read c.1) ∈ m := Memory.mem_of_read_ne (hread ▸ hne)
    rwa [hread] at hmem

/-- Settles O16: both lists are in rising order of address and hold the same cells, those the reads name. -/
theorem memoryIsDeterminedByReads : Obligations.MemoryIsDeterminedByReads := by
  intro m n hm hn hread
  have hasymm : Std.Asymm (fun c d : Host.Cell => c.1 < d.1) := ⟨fun _ _ h => h.not_gt⟩
  have hcells : ∀ c, c ∈ m ↔ c ∈ n := by
    intro c
    rw [Memory.mem_iff hm, Memory.mem_iff hn]
    exact and_congr_right fun hlt => by rw [hread c.1 hlt]
  obtain ⟨hmsorted, -⟩ := hm
  obtain ⟨hnsorted, -⟩ := hn
  exact hmsorted.eq_of_mem_iff hnsorted hcells

/-! ### The bytes a fetch reads after a register dump -/

theorem State.highByte_fetchWord (s : State) : highByte s.fetchWord = s.mem.read s.pc.toNat :=
  highByte_wordOfBytes _ _

theorem State.lowByte_fetchWord (s : State) : lowByte s.fetchWord = s.mem.read (s.pc.toNat + 1) :=
  lowByte_wordOfBytes _ _

/-- After a register dump, `I + r` reads as register `r` (45_index_and_memory.md R203). -/
theorem exec_ldMemVx_read {x r : Reg} {s t : State} (h : exec (.ldMemVx x) s = .next t) (hr : r ≤ x) :
    t.mem.read (s.I.toNat + r.val) = s.reg r := by
  obtain ⟨-, rfl⟩ := ldMemVxWith_next (protect := params.glyphWriteProtect) h
  rw [State.storeAtI_mem, Memory.read_writeList, if_pos (Nat.le_add_right _ _), Nat.add_sub_cancel_left,
    State.getD_firstRegs s r (Nat.lt_succ_of_le hr)]

/-- Settles O12: the two bytes of the fetch are reads of cells the dump stored. -/
theorem storeSeenByNextFetch : Obligations.StoreSeenByNextFetch := by
  intro x s t h
  refine ⟨fun r hr hpc => ?_, fun r hr hpc => ?_⟩
  · rw [State.highByte_fetchWord, hpc, exec_ldMemVx_read h hr]
  · rw [State.lowByte_fetchWord, hpc, exec_ldMemVx_read h hr]

/-! ### The glyph region under GLYPH_WRITE_PROTECT -/

/-- A protected store that starts in the glyph region records I, for its last byte is then well inside memory
(60_exceptions.md R249). -/
theorem storeError_of_glyph {w : Word} {kmax : Nat} {s : State} (hk : kmax ≤ 15) (hI : s.I.toNat ≤ 0x04F) :
    storeError true w kmax s = some (.addressError s.pc w s.I.toNat) := by
  unfold storeError
  rcases accessError_cases w kmax s with ⟨hout, -⟩ | ⟨-, e⟩
  · omega
  · simp [e, hI]

/-- Outside the glyph region, or without the protection, the check of a store is the bounds check alone. -/
theorem storeError_of_not_glyph {protect : Bool} {w : Word} {kmax : Nat} {s : State}
    (h : protect = true → 0x04F < s.I.toNat) : storeError protect w kmax s = accessError w kmax s := by
  cases protect with
  | false => exact storeError_false w kmax s
  | true =>
    have hI : ¬ s.I.toNat ≤ 0x04F := (h rfl).not_ge
    unfold storeError
    rcases accessError_cases w kmax s with ⟨-, e⟩ | ⟨-, e⟩
    · rw [e]
    · simp [e, hI]

section

variable {p : Params} {s t : State}

theorem execWith_ldB_glyph (hp : p.glyphWriteProtect = true) (hI : s.I.toNat ≤ 0x04F) (x : Reg) :
    execWith p (.ldB x) s = .fault (.addressError s.pc (encode (.ldB x)) s.I.toNat) := by
  simp only [execWith, ldBWith, hp, storeError_of_glyph (by omega : 2 ≤ 15) hI, raise]

theorem execWith_ldMemVx_glyph (hp : p.glyphWriteProtect = true) (hI : s.I.toNat ≤ 0x04F) (x : Reg) :
    execWith p (.ldMemVx x) s = .fault (.addressError s.pc (encode (.ldMemVx x)) s.I.toNat) := by
  simp only [execWith, ldMemVxWith, hp, storeError_of_glyph (by omega : x.val ≤ 15) hI, raise]

/-- With the protection no cell of the glyph region is in the range of a store that completes. -/
theorem execWith_not_mayChange_glyph {i : Instr} (hp : p.glyphWriteProtect = true) (h : execWith p i s = .next t) {a : Nat}
    (ha : a ≤ 0x04F) : ¬ (mayChange i s).cell a := by
  cases i with
  | ldB x =>
    rintro ⟨hle, -⟩
    rw [execWith_ldB_glyph hp (hle.trans ha)] at h
    cases h
  | ldMemVx x =>
    rintro ⟨hle, -⟩
    rw [execWith_ldMemVx_glyph hp (hle.trans ha)] at h
    cases h
  | _ => exact id

theorem execWith_ldB_not_glyph (h : p.glyphWriteProtect = true → 0x04F < s.I.toNat) (x : Reg) :
    execWith p (.ldB x) s = exec (.ldB x) s := by
  simp only [execWith, exec, execLdB, ldBWith, params, storeError_of_not_glyph h, storeError_false]

theorem execWith_ldMemVx_not_glyph (h : p.glyphWriteProtect = true → 0x04F < s.I.toNat) (x : Reg) :
    execWith p (.ldMemVx x) s = exec (.ldMemVx x) s := by
  simp only [execWith, exec, execLdMemVx, ldMemVxWith, params, storeError_of_not_glyph h, storeError_false]

end

/-- Settles O46: a store from the glyph region is an AddressError, the frames confine every other instruction, and outside
the region the check is the default one. -/
theorem glyphWriteProtection : Obligations.GlyphWriteProtection :=
  ⟨fun _ hp =>
    ⟨fun _ _ _ h a ha => (execWith_frame h).cells a (execWith_not_mayChange_glyph hp h ha),
      fun x _ hI => ⟨execWith_ldB_glyph hp hI x, execWith_ldMemVx_glyph hp hI x⟩⟩,
    fun _ x _ h => ⟨execWith_ldB_not_glyph h x, execWith_ldMemVx_not_glyph h x⟩, rfl⟩

end Sys2Proof.Machine
end

section
/-! PROOFS. The decoder against the opcode table (30_encoding.md R94 to R98), and the encoder against the decoder. A row
and the word it selects agree on the fields the dispatch looks at, so the word decodes to that row's instruction; and what
a word decodes to has a row that selects it. -/

namespace Sys2Proof

/-! ### The fields that a row fixes -/

section

variable {r : OpcodeRow} {w : Word}

/-- The bits a row's mask covers are the pattern's in every word the row selects. -/
theorem OpcodeRow.Selects.extractLsb_eq (h : r.Selects w) {hi lo : Nat}
    (hm : r.mask.extractLsb hi lo = BitVec.allOnes (hi - lo + 1)) : w.extractLsb hi lo = r.pattern.extractLsb hi lo := by
  rw [← h, BitVec.extractLsb_and, hm, BitVec.and_allOnes]

theorem OpcodeRow.Selects.fieldClass_eq (h : r.Selects w) (hm : r.mask.extractLsb 15 12 = 0xF#4) :
    fieldClass w = fieldClass r.pattern :=
  congrArg BitVec.toNat (h.extractLsb_eq hm)

theorem OpcodeRow.Selects.fieldN_eq (h : r.Selects w) (hm : r.mask.extractLsb 3 0 = 0xF#4) :
    fieldN w = fieldN r.pattern :=
  Fin.ext (congrArg BitVec.toNat (h.extractLsb_eq hm))

theorem OpcodeRow.Selects.fieldNN_eq (h : r.Selects w) (hm : r.mask.extractLsb 7 0 = 0xFF#8) :
    fieldNN w = fieldNN r.pattern :=
  h.extractLsb_eq hm

theorem OpcodeRow.Selects.fieldNNN_eq (h : r.Selects w) (hm : r.mask.extractLsb 11 0 = 0xFFF#12) :
    fieldNNN w = fieldNNN r.pattern :=
  h.extractLsb_eq hm

/-- Every mask of the table covers CLASS (R94). -/
theorem mask_covers_class (h : r ∈ opcodeTable) : r.mask.extractLsb 15 12 = 0xF#4 := by
  revert r
  decide

end

/-! ### The row of an instruction -/

/-- The instruction's own row of the table selects the word. -/
def Instr.RowSelects (i : Instr) (w : Word) : Prop := ∃ r, opcodeTable[i.rowIndex]? = some r ∧ r.Selects w

/-- The instruction of the same row whose operands are the fields of `w` (R93). -/
def Instr.withFields (w : Word) : Instr → Instr
  | .cls => .cls
  | .ret => .ret
  | .jp _ => .jp (fieldNNN w)
  | .call _ => .call (fieldNNN w)
  | .seImm _ _ => .seImm (fieldX w) (fieldNN w)
  | .sneImm _ _ => .sneImm (fieldX w) (fieldNN w)
  | .seReg _ _ => .seReg (fieldX w) (fieldY w)
  | .ldImm _ _ => .ldImm (fieldX w) (fieldNN w)
  | .addImm _ _ => .addImm (fieldX w) (fieldNN w)
  | .ldReg _ _ => .ldReg (fieldX w) (fieldY w)
  | .orReg _ _ => .orReg (fieldX w) (fieldY w)
  | .andReg _ _ => .andReg (fieldX w) (fieldY w)
  | .xorReg _ _ => .xorReg (fieldX w) (fieldY w)
  | .addReg _ _ => .addReg (fieldX w) (fieldY w)
  | .sub _ _ => .sub (fieldX w) (fieldY w)
  | .shr _ _ => .shr (fieldX w) (fieldY w)
  | .subn _ _ => .subn (fieldX w) (fieldY w)
  | .shl _ _ => .shl (fieldX w) (fieldY w)
  | .sneReg _ _ => .sneReg (fieldX w) (fieldY w)
  | .ldI _ => .ldI (fieldNNN w)
  | .jpV0 _ => .jpV0 (fieldNNN w)
  | .rnd _ _ => .rnd (fieldX w) (fieldNN w)
  | .drw _ _ _ => .drw (fieldX w) (fieldY w) (fieldN w)
  | .skp _ => .skp (fieldX w)
  | .sknp _ => .sknp (fieldX w)
  | .ldVxDt _ => .ldVxDt (fieldX w)
  | .ldVxK _ => .ldVxK (fieldX w)
  | .ldDtVx _ => .ldDtVx (fieldX w)
  | .ldStVx _ => .ldStVx (fieldX w)
  | .addI _ => .addI (fieldX w)
  | .ldF _ => .ldF (fieldX w)
  | .ldB _ => .ldB (fieldX w)
  | .ldMemVx _ => .ldMemVx (fieldX w)
  | .ldVxMem _ => .ldVxMem (fieldX w)

@[simp] theorem Instr.rowIndex_withFields (w : Word) (i : Instr) : (i.withFields w).rowIndex = i.rowIndex := by
  cases i <;> rfl

/-- A row's pattern is itself a word of the row. -/
theorem rowIndex_of_decodeWord_pattern :
    ∀ k : Fin opcodeTable.length, (decodeWord opcodeTable[k].pattern).map Instr.rowIndex = some k.val := by
  decide

theorem exists_rowIndex_eq {k : Nat} (hk : k < opcodeTable.length) : ∃ i : Instr, i.rowIndex = k := by
  obtain ⟨i, -, hi⟩ := Option.map_eq_some_iff.1 (rowIndex_of_decodeWord_pattern ⟨k, hk⟩)
  exact ⟨i, hi⟩

theorem Instr.rowSelects_iff {i : Instr} {w : Word} {k : Nat} (hk : k < opcodeTable.length) (hi : i.rowIndex = k) :
    i.RowSelects w ↔ opcodeTable[k].Selects w := by
  subst hi
  simp [Instr.RowSelects, List.getElem?_eq_getElem hk]

/-! ### A selected row is decoded -/

/-- The dispatch of R94 and R95 reads only fields that the row's mask covers: CLASS, and NNN, N or NN in the classes 0, 8,
E and F. -/
theorem Instr.RowSelects.decodeWord_eq {i : Instr} {w : Word} (h : i.RowSelects w) :
    decodeWord w = some (i.withFields w) := by
  obtain ⟨r, hr, hsel⟩ := h
  have hclass := hsel.fieldClass_eq (mask_covers_class (List.mem_of_getElem? hr))
  unfold decodeWord
  rw [hclass]
  cases i with
  | jp | call | seImm | sneImm | seReg | ldImm | addImm | sneReg | ldI | jpV0 | rnd | drw =>
    cases hr
    rfl
  | cls | ret =>
    cases hr
    have hkey := hsel.fieldNNN_eq rfl
    unfold decodeClass0
    rw [hkey]
    rfl
  | ldReg | orReg | andReg | xorReg | addReg | sub | shr | subn | shl =>
    cases hr
    have hkey := hsel.fieldN_eq rfl
    unfold decodeClass8
    rw [hkey]
    rfl
  | skp | sknp =>
    cases hr
    have hkey := hsel.fieldNN_eq rfl
    unfold decodeClassE
    rw [hkey]
    rfl
  | ldVxDt | ldVxK | ldDtVx | ldStVx | addI | ldF | ldB | ldMemVx | ldVxMem =>
    cases hr
    have hkey := hsel.fieldNN_eq rfl
    unfold decodeClassF
    rw [hkey]
    rfl

/-! ### A decoded word is selected by its row -/

section

variable {w : Word} {i : Instr}

/-- The mask 0xF00F keeps CLASS and N. -/
theorem and_class_N_mask (w : Word) : w &&& 0xF00F#16 = BitVec.ofNat 16 (fieldClass w * 4096 + (fieldN w).val) := by
  rw [fieldClass_eq, fieldN_val]
  exact and_low_mask w (k := 4) (by decide)

/-- The mask 0xF0FF keeps CLASS and NN. -/
theorem and_class_NN_mask (w : Word) : w &&& 0xF0FF#16 = BitVec.ofNat 16 (fieldClass w * 4096 + (fieldNN w).toNat) := by
  rw [fieldClass_eq, fieldNN_toNat]
  exact and_low_mask w (k := 8) (by decide)

/-- The mask 0xFFFF keeps CLASS and NNN. -/
theorem and_class_NNN_mask (w : Word) : w &&& 0xFFFF#16 = BitVec.ofNat 16 (fieldClass w * 4096 + (fieldNNN w).toNat) := by
  rw [fieldClass_eq, fieldNNN_toNat]
  exact and_low_mask w (k := 12) (by decide)

theorem rowSelects_of_decodeClass0 (hc : fieldClass w = 0x0) (h : decodeClass0 w = some i) : i.RowSelects w := by
  have hsel := and_class_NNN_mask w
  rw [hc] at hsel
  unfold decodeClass0 at h
  split at h
  case h_3 => cases h
  all_goals
    next hkey =>
      cases h
      rw [hkey] at hsel
      exact ⟨_, rfl, hsel⟩

theorem rowSelects_of_decodeClass8 (hc : fieldClass w = 0x8) (h : decodeClass8 w = some i) : i.RowSelects w := by
  have hsel := and_class_N_mask w
  rw [hc] at hsel
  unfold decodeClass8 at h
  split at h
  case h_10 => cases h
  all_goals
    next hkey =>
      cases h
      rw [hkey] at hsel
      exact ⟨_, rfl, hsel⟩

theorem rowSelects_of_decodeClassE (hc : fieldClass w = 0xE) (h : decodeClassE w = some i) : i.RowSelects w := by
  have hsel := and_class_NN_mask w
  rw [hc] at hsel
  unfold decodeClassE at h
  split at h
  case h_3 => cases h
  all_goals
    next hkey =>
      cases h
      rw [hkey] at hsel
      exact ⟨_, rfl, hsel⟩

theorem rowSelects_of_decodeClassF (hc : fieldClass w = 0xF) (h : decodeClassF w = some i) : i.RowSelects w := by
  have hsel := and_class_NN_mask w
  rw [hc] at hsel
  unfold decodeClassF at h
  split at h
  case h_10 => cases h
  all_goals
    next hkey =>
      cases h
      rw [hkey] at hsel
      exact ⟨_, rfl, hsel⟩

theorem rowSelects_of_decodeWord (h : decodeWord w = some i) : i.RowSelects w := by
  unfold decodeWord at h
  split at h
  case h_1 hc => exact rowSelects_of_decodeClass0 hc h
  case h_9 hc => exact rowSelects_of_decodeClass8 hc h
  case h_15 hc => exact rowSelects_of_decodeClassE hc h
  case h_16 hc => exact rowSelects_of_decodeClassF hc h
  case h_17 => cases h
  all_goals
    next hc =>
      cases h
      exact ⟨_, rfl, (and_class_mask_eq (by decide) w).2 hc⟩

end

/-- The row is the only one: a second selected row would decode the word to an instruction of its own. -/
theorem selects_iff_of_decodeWord {w : Word} {i : Instr} (h : decodeWord w = some i) {k : Nat}
    (hk : k < opcodeTable.length) : opcodeTable[k].Selects w ↔ k = i.rowIndex := by
  constructor
  · intro hsel
    obtain ⟨j, hj⟩ := exists_rowIndex_eq hk
    have hdec := ((Instr.rowSelects_iff hk hj).2 hsel).decodeWord_eq
    obtain rfl : i = j.withFields w := Option.some.inj (h.symm.trans hdec)
    rw [Instr.rowIndex_withFields, hj]
  · intro hki
    exact (Instr.rowSelects_iff hk hki.symm).1 (rowSelects_of_decodeWord h)

theorem decodeWord_eq_none_iff_not_selects (w : Word) : decodeWord w = none ↔ ∀ r ∈ opcodeTable, ¬ r.Selects w := by
  constructor
  · intro hnone r hr hsel
    obtain ⟨k, hk, rfl⟩ := List.getElem_of_mem hr
    obtain ⟨j, hj⟩ := exists_rowIndex_eq hk
    rw [((Instr.rowSelects_iff hk hj).2 hsel).decodeWord_eq] at hnone
    cases hnone
  · intro hno
    by_contra hdec
    obtain ⟨i, hi⟩ := Option.ne_none_iff_exists'.1 hdec
    obtain ⟨r, hr, hsel⟩ := rowSelects_of_decodeWord hi
    exact hno r (List.mem_of_getElem? hr) hsel

/-- Settles O2: a decoded word is selected by the row of its instruction, and a selected row determines what is decoded. -/
theorem decoderFollowsOpcodeTable : Obligations.DecoderFollowsOpcodeTable :=
  fun w => ⟨fun _ h _ hk => selects_iff_of_decodeWord h hk, decodeWord_eq_none_iff_not_selects w⟩

/-! ### The encoder -/

section

open Laws

/-- The encoder's word selects the instruction's own row (R102). -/
theorem rowSelects_encode : ∀ i : Instr, i.RowSelects (encode i)
  | .cls => RowMatch.cls.1
  | .ret => RowMatch.ret.1
  | .jp nnn => (RowMatch.jp nnn).1
  | .call nnn => (RowMatch.call nnn).1
  | .seImm x nn => (RowMatch.seImm x nn).1
  | .sneImm x nn => (RowMatch.sneImm x nn).1
  | .seReg x y => (RowMatch.seReg x y).1
  | .ldImm x nn => (RowMatch.ldImm x nn).1
  | .addImm x nn => (RowMatch.addImm x nn).1
  | .ldReg x y => (RowMatch.ldReg x y).1
  | .orReg x y => (RowMatch.orReg x y).1
  | .andReg x y => (RowMatch.andReg x y).1
  | .xorReg x y => (RowMatch.xorReg x y).1
  | .addReg x y => (RowMatch.addReg x y).1
  | .sub x y => (RowMatch.sub x y).1
  | .shr x y => (RowMatch.shr x y).1
  | .subn x y => (RowMatch.subn x y).1
  | .shl x y => (RowMatch.shl x y).1
  | .sneReg x y => (RowMatch.sneReg x y).1
  | .ldI nnn => (RowMatch.ldI nnn).1
  | .jpV0 nnn => (RowMatch.jpV0 nnn).1
  | .rnd x nn => (RowMatch.rnd x nn).1
  | .drw x y n => (RowMatch.drw x y n).1
  | .skp x => (RowMatch.skp x).1
  | .sknp x => (RowMatch.sknp x).1
  | .ldVxDt x => (RowMatch.ldVxDt x).1
  | .ldVxK x => (RowMatch.ldVxK x).1
  | .ldDtVx x => (RowMatch.ldDtVx x).1
  | .ldStVx x => (RowMatch.ldStVx x).1
  | .addI x => (RowMatch.addI x).1
  | .ldF x => (RowMatch.ldF x).1
  | .ldB x => (RowMatch.ldB x).1
  | .ldMemVx x => (RowMatch.ldMemVx x).1
  | .ldVxMem x => (RowMatch.ldVxMem x).1

end

theorem fieldX_nibbles_of_lt {c y n : Nat} (hc : c < 16) (hy : y < 16) (hn : n < 16) (x : Reg) :
    fieldX (nibbles c x y n) = x :=
  fieldX_nibbles hc x ⟨y, hy⟩ ⟨n, hn⟩

theorem fieldY_nibbles_of_lt {c x n : Nat} (hc : c < 16) (hx : x < 16) (hn : n < 16) (y : Reg) :
    fieldY (nibbles c x y n) = y :=
  fieldY_nibbles hc ⟨x, hx⟩ y ⟨n, hn⟩

/-- The fields of the encoder's word are the operands (R93). -/
theorem withFields_encode (i : Instr) : i.withFields (encode i) = i := by
  cases i with
  | cls | ret => rfl
  | jp nnn | call nnn | ldI nnn | jpV0 nnn =>
    simp only [encode, Instr.withFields]
    rw [fieldNNN_wordNNN (by decide)]
  | seImm x nn | sneImm x nn | ldImm x nn | addImm x nn | rnd x nn =>
    simp only [encode, Instr.withFields]
    rw [fieldX_wordXNN (by decide), fieldNN_wordXNN (by decide)]
  | seReg x y | sneReg x y | ldReg x y | orReg x y | andReg x y | xorReg x y | addReg x y | sub x y | shr x y | subn x y
  | shl x y =>
    simp only [encode, Instr.withFields]
    rw [fieldX_nibbles_of_lt (by decide) y.isLt (by decide), fieldY_nibbles_of_lt (by decide) x.isLt (by decide)]
  | drw x y n =>
    simp only [encode, Instr.withFields]
    rw [fieldX_nibbles (by decide), fieldY_nibbles (by decide), fieldN_nibbles (by decide)]
  | skp x | sknp x | ldVxDt x | ldVxK x | ldDtVx x | ldStVx x | addI x | ldF x | ldB x | ldMemVx x | ldVxMem x =>
    simp only [encode, Instr.withFields]
    rw [fieldX_nibbles_of_lt (by decide) (by decide) (by decide)]

theorem decodeWord_encode (i : Instr) : decodeWord (encode i) = some i := by
  rw [(rowSelects_encode i).decodeWord_eq, withFields_encode]

theorem decode_bytes {w : Word} {i : Instr} (h : decodeWord w = some i) (rest : List Byte) :
    decode (highByte w :: lowByte w :: rest) = .ok (i, rest) := by
  simp only [decode, wordOfBytes_bytes, h]

/-- Settles O1: the encoder's word selects the instruction's row, and its fields are the operands. -/
theorem decodeEncodeRoundTrip : Obligations.DecodeEncodeRoundTrip :=
  fun i _ => ⟨decodeWord_encode i, decode_bytes (decodeWord_encode i)⟩

/-! ### The illegal words (R98) -/

theorem decodeClass0_eq_none (w : Word) :
    decodeClass0 w = none ↔ (fieldNNN w).toNat ≠ 0x0E0 ∧ (fieldNNN w).toNat ≠ 0x0EE := by
  unfold decodeClass0
  split <;> simp_all

theorem decodeClass8_eq_none (w : Word) :
    decodeClass8 w = none ↔ (fieldN w).val ∉ [0x0, 0x1, 0x2, 0x3, 0x4, 0x5, 0x6, 0x7, 0xE] := by
  unfold decodeClass8
  split <;> simp_all

theorem decodeClassE_eq_none (w : Word) : decodeClassE w = none ↔ (fieldNN w).toNat ∉ [0x9E, 0xA1] := by
  unfold decodeClassE
  split <;> simp_all

theorem decodeClassF_eq_none (w : Word) :
    decodeClassF w = none ↔ (fieldNN w).toNat ∉ [0x07, 0x0A, 0x15, 0x18, 0x1E, 0x29, 0x33, 0x55, 0x65] := by
  unfold decodeClassF
  split <;> simp_all

theorem fieldClass_lt (w : Word) : fieldClass w < 16 := (w.extractLsb 15 12).isLt

/-- Only the four classes with a secondary key have illegal words. -/
theorem decodeWord_eq_none_iff (w : Word) : decodeWord w = none ↔
    (fieldClass w = 0x0 ∧ decodeClass0 w = none) ∨ (fieldClass w = 0x8 ∧ decodeClass8 w = none) ∨
      (fieldClass w = 0xE ∧ decodeClassE w = none) ∨ (fieldClass w = 0xF ∧ decodeClassF w = none) := by
  have hlt := fieldClass_lt w
  unfold decodeWord
  split
  case h_17 =>
    simp only [imp_false] at *
    omega
  all_goals
    next hc => simp [hc]

/-- The low nibbles with no handler in class 8. -/
theorem not_mem_class8_keys_iff :
    ∀ n < 16, n ∉ [0x0, 0x1, 0x2, 0x3, 0x4, 0x5, 0x6, 0x7, 0xE] ↔ n ∈ [0x8, 0x9, 0xA, 0xB, 0xC, 0xD, 0xF] := by
  decide

/-- Settles O3: class by class, the keys that the secondary dispatch has no handler for. -/
theorem illegalWordsExactly : Obligations.IllegalWordsExactly := by
  intro w
  have hclass0 (h : w.toNat / 4096 = 0x0) : w.toNat % 4096 = w.toNat := by omega
  rw [decodeWord_eq_none_iff, decodeClass0_eq_none, decodeClass8_eq_none, decodeClassE_eq_none, decodeClassF_eq_none,
    fieldClass_eq, fieldN_val, fieldNN_toNat, fieldNNN_toNat, not_mem_class8_keys_iff _ (Nat.mod_lt _ (by decide))]
  exact or_congr_left (and_congr_right fun h => by rw [hclass0 h])

/-! ### Words written out -/

/-- Settles O4, by decoding each word. -/
theorem writtenWordsDecode : Obligations.WrittenWordsDecode := by
  unfold Obligations.WrittenWordsDecode
  decide

end Sys2Proof
end

section
/-! PROOFS. The execution cycle (40_execution_cycle.md R120 to R127): the step runs what it fetched and decoded, and its
error is the first that the fetch, the decoder or the instruction's own check raises. -/

namespace Sys2Proof.Machine

/-! ### The word that the fetch hands to the decoder -/

theorem decode_pair_eq_ok {hi lo : Byte} {i : Instr} :
    decode [hi, lo] = .ok (i, []) ↔ decodeWord (wordOfBytes hi lo) = some i := by
  cases h : decodeWord (wordOfBytes hi lo) with
  | none => simp [decode, h]
  | some j => simp [decode, h]

/-- The table's number is the word itself. -/
theorem decodeTableWord_eq (nbits w : Nat) : decodeTableWord nbits w = decodeWord (BitVec.ofNat 16 (w % 2 ^ nbits)) := by
  unfold decodeTableWord
  cases h : decodeWord (BitVec.ofNat 16 (w % 2 ^ nbits)) with
  | none => simp [decode, h]
  | some i => simp [decode_bytes h]

/-! ### The step of a decoded instruction -/

section

variable {s : State} {i : Instr}

theorem stepWith_eq_execWith (p : Params) (hpc : s.pc.toNat ≤ 0xFFE) (hdec : decodeWord s.fetchWord = some i) :
    stepWith p s = execWith p i s := by
  simp only [stepWith, fetchDecode_eq_ok.2 ⟨hpc, hdec⟩]

theorem step_eq_exec (hpc : s.pc.toNat ≤ 0xFFE) (hdec : decodeWord s.fetchWord = some i) : step s = exec i s := by
  simp only [step, fetchDecode_eq_ok.2 ⟨hpc, hdec⟩]

end

theorem System.apply_step_next {y : System} {t : State} (h : stepWith y.params y.machine = .next t) :
    System.apply .step y = .ok (⟨t, .running, y.params⟩, .ok) := by
  simp only [System.apply, h]

/-- Settles O5: the fetch succeeds and the step is the dispatch alone; the transaction keeps the state it answers. -/
theorem stepRunsDecodedInstruction : Obligations.StepRunsDecodedInstruction := by
  refine ⟨fun s i hpc hbytes _ => ?_, fun y t h => System.apply_step_next h⟩
  have hdec : decodeWord s.fetchWord = some i := decode_pair_eq_ok.1 hbytes
  exact ⟨step_eq_exec hpc hdec, fun p => stepWith_eq_execWith p hpc hdec⟩

/-- Settles O6: a placed word is the one the next step fetches, at a pc that can fetch it. -/
theorem stepRunsPlacedWord : Obligations.StepRunsPlacedWord := by
  intro s w i htable
  rw [decodeTableWord_eq] at htable
  obtain ⟨hpc, hfetch⟩ := s.fetch_placeWord (BitVec.ofNat 16 (w % 2 ^ 16))
  exact step_eq_exec hpc (hfetch.symm ▸ htable)

/-! ### The answer of an instruction is decided by its own check -/

/-- An answer with exactly the error `e`: that fault, or a next state when there is none. It is no refusal. -/
inductive Answers : StepResult → Option Fault → Prop where
  | fault (f : Fault) : Answers (.fault f) (some f)
  | next (t : State) : Answers (.next t) none

namespace Answers

variable {r : StepResult} {e : Option Fault}

theorem eq_fault_iff (h : Answers r e) (f : Fault) : r = .fault f ↔ e = some f := by
  cases h <;> simp

theorem ne_refused (h : Answers r e) (x : Refusal) : r ≠ .refused x := by
  cases h <;> simp

theorem of_check {c : Prop} [Decidable c] {f : Fault} (h : (c ∧ r = .fault f) ∨ (¬ c ∧ ∃ t, r = .next t)) :
    Answers r (if c then some f else none) := by
  rcases h with ⟨hc, rfl⟩ | ⟨hc, t, rfl⟩
  · rw [if_pos hc]
    exact .fault f
  · rw [if_neg hc]
    exact .next t

end Answers

theorem exec_skp_cases (x : Reg) (s : State) :
    (0xF < (s.reg x).toNat ∧ exec (.skp x) s = .fault (.keyIndexError s.pc (s.reg x))) ∨
    ∃ hk : (s.reg x).toNat < 16, exec (.skp x) s = .next (s.skipIf (s.keyDown ⟨(s.reg x).toNat, hk⟩)) := by
  rcases keyIndex_cases (s.reg x) with ⟨hout, e⟩ | ⟨hk, e⟩
  · exact .inl ⟨hout, by simp only [exec, execSkp, e, raise]⟩
  · exact .inr ⟨hk, by simp only [exec, execSkp, e]⟩

theorem exec_sknp_cases (x : Reg) (s : State) :
    (0xF < (s.reg x).toNat ∧ exec (.sknp x) s = .fault (.keyIndexError s.pc (s.reg x))) ∨
    ∃ hk : (s.reg x).toNat < 16, exec (.sknp x) s = .next (s.skipIf (!s.keyDown ⟨(s.reg x).toNat, hk⟩)) := by
  rcases keyIndex_cases (s.reg x) with ⟨hout, e⟩ | ⟨hk, e⟩
  · exact .inl ⟨hout, by simp only [exec, execSknp, e, raise]⟩
  · exact .inr ⟨hk, by simp only [exec, execSknp, e]⟩

/-- The own errors of 60_exceptions.md R241, each under exactly its condition; the recorded word is the encoder's. -/
theorem exec_answers_ownError (i : Instr) (s : State) : Answers (exec i s) (ownError (encode i) i s) := by
  cases i with
  | ret => exact .of_check ((exec_ret_cases s).imp_right fun ⟨hsp, e⟩ => ⟨by omega, _, e⟩)
  | call nnn => exact .of_check ((exec_call_cases nnn s).imp_right fun ⟨hsp, e⟩ => ⟨by omega, _, e⟩)
  | drw x y n => exact .of_check ((exec_drw_cases x y n s).imp_right fun ⟨hfits, e⟩ => ⟨by omega, _, e⟩)
  | ldB x => exact .of_check ((exec_ldB_cases x s).imp_right fun ⟨hfits, e⟩ => ⟨by omega, _, e⟩)
  | ldMemVx x => exact .of_check ((exec_ldMemVx_cases x s).imp_right fun ⟨hfits, e⟩ => ⟨by omega, _, e⟩)
  | ldVxMem x => exact .of_check ((exec_ldVxMem_cases x s).imp_right fun ⟨hfits, e⟩ => ⟨by omega, _, e⟩)
  | skp x => exact .of_check ((exec_skp_cases x s).imp_right fun ⟨hk, e⟩ => ⟨by omega, _, e⟩)
  | sknp x => exact .of_check ((exec_sknp_cases x s).imp_right fun ⟨hk, e⟩ => ⟨by omega, _, e⟩)
  | ldVxK x =>
    simp only [exec, execLdVxK]
    split
    · exact .next _
    · exact .next _
  | _ => exact .next _

/-! ### The fetched word is the recorded one -/

section

variable {v w : Word} {i : Instr}

theorem word_eq_of_fields (hclass : fieldClass v = fieldClass w) (hX : fieldX v = fieldX w) (hNN : fieldNN v = fieldNN w) :
    v = w := by
  rw [fieldClass_eq, fieldClass_eq] at hclass
  rw [Fin.ext_iff, fieldX_val, fieldX_val] at hX
  rw [← BitVec.toNat_inj, fieldNN_toNat, fieldNN_toNat] at hNN
  apply BitVec.eq_of_toNat_eq
  omega

theorem fieldNN_eq_of_nibbles (hY : fieldY v = fieldY w) (hN : fieldN v = fieldN w) : fieldNN v = fieldNN w := by
  rw [Fin.ext_iff, fieldY_val, fieldY_val] at hY
  rw [Fin.ext_iff, fieldN_val, fieldN_val] at hN
  rw [← BitVec.toNat_inj, fieldNN_toNat, fieldNN_toNat]
  omega

/-- A decoded word and the encoder's word lie in one row of the table. -/
theorem exists_row_of_decodeWord (h : decodeWord w = some i) :
    ∃ r, opcodeTable[i.rowIndex]? = some r ∧ r.Selects (encode i) ∧ r.Selects w := by
  obtain ⟨r, hr, hsel⟩ := rowSelects_of_decodeWord h
  obtain ⟨r', hr', henc⟩ := rowSelects_encode i
  obtain rfl : r' = r := Option.some.inj (hr'.symm.trans hr)
  exact ⟨r', hr, henc, hsel⟩

/-- A decoded word and the encoder's word have the same operand fields. -/
theorem withFields_encode_of_decodeWord (h : decodeWord w = some i) : i.withFields (encode i) = i.withFields w := by
  rw [withFields_encode]
  exact Option.some.inj (h.symm.trans (rowSelects_of_decodeWord h).decodeWord_eq)

/-- Only the four memory instructions record the word, and the encoder has every bit of theirs: CLASS from the row, X and NN
from the operands or from the row. -/
theorem ownError_encode_of_decodeWord (h : decodeWord w = some i) (s : State) :
    ownError (encode i) i s = ownError w i s := by
  obtain ⟨r, hr, henc, hsel⟩ := exists_row_of_decodeWord h
  have hmask := mask_covers_class (List.mem_of_getElem? hr)
  have hclass := (henc.fieldClass_eq hmask).trans (hsel.fieldClass_eq hmask).symm
  have hfields := withFields_encode_of_decodeWord h
  cases i with
  | drw x y n =>
    injection hfields with hX hY hN
    rw [word_eq_of_fields hclass hX (fieldNN_eq_of_nibbles hY hN)]
  | ldB x | ldMemVx x | ldVxMem x =>
    injection hfields with hX
    cases hr
    rw [word_eq_of_fields hclass hX ((henc.fieldNN_eq rfl).trans (hsel.fieldNN_eq rfl).symm)]
  | _ => rfl

end

/-! ### The error of a step -/

theorem step_answers_stepError (s : State) : Answers (step s) (stepError s) := by
  by_cases hpc : 0xFFE < s.pc.toNat
  · simp only [step, fetchDecode, stepError, if_pos hpc]
    exact .fault _
  · cases hdec : decodeWord s.fetchWord with
    | none =>
      simp only [step, fetchDecode, stepError, if_neg hpc, hdec]
      exact .fault _
    | some i =>
      simp only [stepError, if_neg hpc, hdec]
      rw [step_eq_exec (Nat.le_of_not_lt hpc) hdec, ← ownError_encode_of_decodeWord hdec s]
      exact exec_answers_ownError i s

/-- Settles O8: the step answers the first error of the fetch, the decoder and the instruction's own check. -/
theorem stepErrorsExactly : Obligations.StepErrorsExactly :=
  fun s => ⟨(step_answers_stepError s).eq_fault_iff, (step_answers_stepError s).ne_refused⟩

end Sys2Proof.Machine
end

section
/-! PROOFS. The control-flow instructions (41_control_flow.md R140 to R147): each is a jump, a skip, or a move of the stack
pointer followed by a jump, and the bound and the round trip of calls and returns follow from these. -/

namespace Sys2Proof.Machine

/-! ### An error under any parameters -/

/-- An error that no parameter takes part in: the `step` transaction that runs the instruction reports it and keeps the
machine. -/
theorem stopsWith_of_execWith {i : Instr} {s : State} {f : Fault} (h : ∀ p, execWith p i s = .fault f) :
    StopsWith i s f :=
  ⟨(execWith_params i s).symm.trans (h params),
    fun p => ⟨h p, fun _ hstep => System.apply_step_fault (hstep.trans (h p))⟩⟩

theorem stopsWith_of_not_readsParameter {i : Instr} {s : State} {f : Fault} (hi : ¬ readsParameter i)
    (h : exec i s = .fault f) : StopsWith i s f :=
  stopsWith_of_execWith fun p => (execWith_of_not_readsParameter p s hi).trans h

/-! ### Jump targets -/

@[simp] theorem zextAddr_toNat (nnn : Addr12) : (zextAddr nnn).toNat = nnn.toNat :=
  BitVec.toNat_setWidth_of_le (by decide)

@[simp] theorem zextByte_toNat (v : Byte) : (zextByte v).toNat = v.toNat :=
  BitVec.toNat_setWidth_of_le (by decide)

/-- The largest target is 0xFFF + 0xFF, so the 16-bit sum never wraps (41_control_flow.md R147). -/
theorem zextAddr_add_zextByte_toNat (nnn : Addr12) (v : Byte) :
    (zextAddr nnn + zextByte v).toNat = nnn.toNat + v.toNat := by
  rw [BitVec.toNat_add, zextAddr_toNat, zextByte_toNat]
  omega

theorem State.jump_pc_self (s : State) : s.jump s.pc = s := rfl

/-- Settles O21: the target is the whole address, and a jump to the own pc writes back what was there. -/
theorem jumpSetsPc : Obligations.JumpSetsPc := by
  refine fun nnn => ⟨decodeWord_encode (.jp nnn), fun s => ?_⟩
  refine ⟨_, rfl, zextAddr_toNat nnn, instructionFrames (.jp nnn) s _ rfl, fun hself => ?_⟩
  have htarget : zextAddr nnn = s.pc := BitVec.eq_of_toNat_eq ((zextAddr_toNat nnn).trans hself.symm)
  rw [htarget, State.jump_pc_self]

/-- Settles O25: neither the 16-bit sum nor the 12-bit address loses a bit. -/
theorem indexedJumpIsNotMasked : Obligations.IndexedJumpIsNotMasked := by
  refine fun nnn => ⟨decodeWord_encode (.jpV0 nnn), fun s => ?_⟩
  have hsum := zextAddr_add_zextByte_toNat nnn (s.reg 0)
  refine ⟨_, rfl, hsum, ?_, instructionFrames (.jpV0 nnn) s _ rfl⟩
  rw [State.jump_pc, hsum]
  omega

/-! ### Skips -/

/-- What the four skips share: `c` is the condition to skip, `d` the condition to go on. -/
theorem exists_next_skipIf {c d : Prop} {b : Bool} (s : State) (hc : c → b = true) (hd : d → b = false) :
    ∃ t, (.next (s.skipIf b) : StepResult) = .next t ∧ (c → t.pc = s.pc + 4) ∧ (d → t.pc = s.pc + 2) ∧
      Frame {} s t :=
  ⟨_, rfl, fun h => by simp [hc h], fun h => by simp [hd h], (Frame.refl {} s).skipIf b⟩

/-- Settles O23: SE tests for equality and SNE for its negation. -/
theorem skipsOnImmediate : Obligations.SkipsOnImmediate :=
  fun x nn => ⟨decodeWord_encode (.seImm x nn), decodeWord_encode (.sneImm x nn), fun s =>
    ⟨exists_next_skipIf s beq_iff_eq.2 beq_eq_false_iff_ne.2, exists_next_skipIf s bne_iff_ne.2 bne_eq_false_iff_eq.2⟩⟩

/-- The dispatch of class 5 does not look at the low nibble (30_encoding.md R94). -/
theorem decodeWord_nibbles_seReg (x y : Reg) (n : Nibble) : decodeWord (nibbles 0x5 x y n) = some (.seReg x y) := by
  have hc : 0x5 < 16 := by decide
  simp only [decodeWord, fieldClass_nibbles hc, fieldX_nibbles hc, fieldY_nibbles hc]

/-- The dispatch of class 9 does not look at the low nibble (30_encoding.md R94). -/
theorem decodeWord_nibbles_sneReg (x y : Reg) (n : Nibble) : decodeWord (nibbles 0x9 x y n) = some (.sneReg x y) := by
  have hc : 0x9 < 16 := by decide
  simp only [decodeWord, fieldClass_nibbles hc, fieldX_nibbles hc, fieldY_nibbles hc]

/-- Settles O24: the skips of O23 with a register for the immediate. -/
theorem skipsOnRegisters : Obligations.SkipsOnRegisters :=
  fun x y => ⟨fun n => ⟨decodeWord_nibbles_seReg x y n, decodeWord_nibbles_sneReg x y n⟩, fun s =>
    ⟨exists_next_skipIf s beq_iff_eq.2 beq_eq_false_iff_ne.2, exists_next_skipIf s bne_iff_ne.2 bne_eq_false_iff_eq.2⟩⟩

/-! ### Calls and returns -/

theorem exec_ret_of_pos {s : State} (hsp : 0 < s.sp.val) :
    exec .ret s =
      .next (State.jump { s with sp := ⟨s.sp.val - 1, by omega⟩ } (s.stack[s.sp.val - 1]'(by omega) + 2)) := by
  rcases exec_ret_cases s with ⟨hempty, -⟩ | ⟨_, e⟩
  · omega
  · exact e

theorem stopsWith_ret {s : State} (hsp : s.sp.val = 0) : StopsWith .ret s (.stackUnderflow s.pc) := by
  refine stopsWith_of_not_readsParameter id ?_
  rcases exec_ret_cases s with ⟨-, e⟩ | ⟨hpos, -⟩
  · exact e
  · omega

/-- Settles O20: an empty stack is the error; else the slot that the new sp names holds the address popped. -/
theorem returnPopsAndAddsTwo : Obligations.ReturnPopsAndAddsTwo := by
  refine ⟨decodeWord_encode .ret, fun s => ⟨stopsWith_ret, fun hsp => ?_⟩⟩
  have hnext := exec_ret_of_pos hsp
  exact ⟨_, hnext, rfl, rfl, instructionFrames .ret s _ hnext⟩

theorem exec_call_of_lt {s : State} (nnn : Addr12) (hsp : s.sp.val < 16) :
    exec (.call nnn) s =
      .next (State.jump { s with stack := s.stack.set s.sp.val s.pc, sp := ⟨s.sp.val + 1, by omega⟩ } (zextAddr nnn)) := by
  rcases exec_call_cases nnn s with ⟨hfull, -⟩ | ⟨_, e⟩
  · omega
  · exact e

theorem stopsWith_call {s : State} (nnn : Addr12) (hsp : s.sp.val = 16) :
    StopsWith (.call nnn) s (.stackOverflow s.pc) := by
  refine stopsWith_of_not_readsParameter id ?_
  rcases exec_call_cases nnn s with ⟨-, e⟩ | ⟨hlt, -⟩
  · exact e
  · omega

/-- Settles O22: a full stack is the error; else slot sp takes the pc of the CALL. -/
theorem callPushesItsOwnAddress : Obligations.CallPushesItsOwnAddress := by
  refine fun nnn => ⟨decodeWord_encode (.call nnn), fun s => ⟨stopsWith_call nnn, fun hsp => ?_⟩⟩
  have hnext := exec_call_of_lt nnn hsp
  exact ⟨_, hnext, Vector.getElem_set_self hsp, rfl, zextAddr_toNat nnn, instructionFrames (.call nnn) s _ hnext⟩

/-- Settles O26: the call leaves its own pc in the slot below the new sp, which is the slot the return reads. -/
theorem callThenReturnResumesAfterCall : Obligations.CallThenReturnResumesAfterCall := by
  intro nnn s t u hcall hstack hsp
  obtain ⟨hroom, rfl⟩ := exec_call_next hcall
  have hdepth : u.sp.val = s.sp.val + 1 := congrArg Fin.val hsp
  have hslot : u.stack[u.sp.val - 1]'(by omega) = s.pc := by simp [hstack, hdepth]
  refine ⟨_, exec_ret_of_pos (by omega), congrArg (· + 2) hslot, Fin.ext ?_⟩
  exact congrArg (· - 1) hdepth

/-- Settles O27: a slot holds at most 0xFFE, so two more do not wrap. -/
theorem returnTargetIsBounded : Obligations.ReturnTargetIsBounded := by
  intro s t hs hret
  obtain ⟨hsp, rfl⟩ := exec_ret_next hret
  have hslot : (s.stack[s.sp.val - 1]'(by omega)).toNat ≤ 0xFFE := hs.slots ⟨s.sp.val - 1, by omega⟩
  rw [State.jump_pc]
  bv_omega

end Sys2Proof.Machine
end

section
/-! PROOFS. The loads and the addition of an immediate, and the random byte under its mask (42_immediate_and_random.md R160
to R163): each writes one register, or I, and moves on to the next instruction. -/

namespace Sys2Proof.Machine

/-! ### The written register -/

@[simp] theorem State.reg_setReg_self (s : State) (r : Reg) (v : Byte) : (s.setReg r v).reg r = v := by
  rw [State.reg_setReg, if_pos rfl]

/-- Settles O28: the immediate is what the written register reads. -/
theorem loadImmediateResult : Obligations.LoadImmediateResult :=
  fun x nn => ⟨decodeWord_encode (.ldImm x nn), fun s =>
    ⟨_, rfl, State.reg_setReg_self s x nn, rfl, instructionFrames (.ldImm x nn) s _ rfl⟩⟩

theorem addCarry_fst_toNat (a b : Byte) : (addCarry a b).1.toNat = (a.toNat + b.toNat) % 256 :=
  BitVec.toNat_ofNat _ 8

/-- Settles O29: the sum of two bytes is taken modulo 256, and VF is outside the frame unless it is the destination. -/
theorem addImmediateWrapsWithoutFlag : Obligations.AddImmediateWrapsWithoutFlag := by
  refine fun x nn => ⟨decodeWord_encode (.addImm x nn), fun s => ?_⟩
  refine ⟨_, rfl, ?_, rfl, instructionFrames (.addImm x nn) s _ rfl⟩
  rw [State.reg_advance, State.reg_setReg_self, addCarry_fst_toNat]

/-- Settles O30: the 12-bit address is extended with zeros. -/
theorem loadAddressRegisterResult : Obligations.LoadAddressRegisterResult :=
  fun nnn => ⟨decodeWord_encode (.ldI nnn), fun s =>
    ⟨_, rfl, zextAddr_toNat nnn, rfl, instructionFrames (.ldI nnn) s _ rfl⟩⟩

/-! ### A byte under a mask -/

@[simp] theorem reg_rndWith_self (r : Byte) (x : Reg) (nn : Byte) (s : State) : (rndWith r x nn s).reg x = r &&& nn :=
  State.reg_setReg_self s x (r &&& nn)

theorem and_mask_and_not_mask (r nn : Byte) : (r &&& nn) &&& ~~~nn = 0 := by
  rw [BitVec.and_assoc, BitVec.and_not_self]
  exact BitVec.and_zero

/-- A byte with no bit outside the mask is its own masked value. -/
theorem and_mask_eq_self {v nn : Byte} (h : v &&& ~~~nn = 0) : v &&& nn = v := by
  calc v &&& nn = (v &&& nn) ||| (v &&& ~~~nn) := by rw [h]; exact BitVec.or_zero.symm
    _ = v := by rw [← BitVec.and_or_distrib_left, BitVec.or_not_self, BitVec.and_allOnes]

/-- Settles O31: the register takes the masked byte, so no result has a bit outside the mask, and a value without such a bit
is the result of itself as the random byte. -/
theorem randomUnderMask : Obligations.RandomUnderMask := by
  refine fun x nn => ⟨decodeWord_encode (.rnd x nn), fun s => ?_, fun r s => ?_, fun v hv => ⟨v, fun s => ?_⟩⟩
  · exact ⟨_, rfl, reg_rndWith_self _ x nn _, rfl, rfl, instructionFrames (.rnd x nn) s _ rfl⟩
  · rw [reg_rndWith_self, and_mask_and_not_mask]
  · rw [reg_rndWith_self, and_mask_eq_self hv]

end Sys2Proof.Machine
end

section
/-! PROOFS. Arithmetic and logic (43_alu.md R170 to R179): the copy and the three logic operations write one register; the
others end in `State.writeFlagged`, which writes the result first and the flag last. -/

namespace Sys2Proof.Machine

/-! ### Copy and logic -/

/-- What the copy and the three logic operations share: one register is written and the pc moves on. -/
theorem exists_next_setReg (x : Reg) (v : Byte) (s : State) :
    ∃ t, (.next (s.setReg x v).advance : StepResult) = .next t ∧ t.reg x = v ∧ t.pc = s.pc + 2 ∧
      Frame { reg := (· = x) } s t :=
  ⟨_, rfl, State.reg_setReg_self s x v, rfl, ((Frame.refl _ s).setReg rfl v).advance⟩

/-- Settles O32: each of the four writes its result into Vx and nothing else. -/
theorem copyAndLogicResults : Obligations.CopyAndLogicResults :=
  fun x y => ⟨decodeWord_encode (.ldReg x y), decodeWord_encode (.orReg x y), decodeWord_encode (.andReg x y),
    decodeWord_encode (.xorReg x y), fun s =>
      ⟨exists_next_setReg x (s.reg y) s, exists_next_setReg x (s.reg x ||| s.reg y) s,
        exists_next_setReg x (s.reg x &&& s.reg y) s, exists_next_setReg x (s.reg x ^^^ s.reg y) s⟩⟩

/-! ### The results and their flags -/

theorem addCarry_snd (a b : Byte) : (addCarry a b).2 = decide (255 < a.toNat + b.toNat) := rfl

theorem subNoBorrow_fst_toNat (a b : Byte) : (subNoBorrow a b).1.toNat = (a.toNat + 256 - b.toNat) % 256 := by
  have hfst : (subNoBorrow a b).1.toNat = (((a.toNat : Int) - b.toNat) % 256).toNat := BitVec.toNat_ofInt ..
  omega

theorem subNoBorrow_snd (a b : Byte) : (subNoBorrow a b).2 = decide (b.toNat ≤ a.toNat) :=
  decide_eq_decide.2 (by omega)

theorem shiftRight_fst_toNat (a : Byte) : (shiftRight a).1.toNat = a.toNat / 2 :=
  (BitVec.toNat_ofNat _ 8).trans (Nat.mod_eq_of_lt (by omega))

theorem shiftRight_snd_toNat (a : Byte) : (shiftRight a).2.toNat = a.toNat % 2 := by
  have hbit : (shiftRight a).2.toNat = a.toNat / 2 ^ 0 % 2 := Nat.toNat_testBit a.toNat 0
  omega

theorem shiftLeft_fst_toNat (a : Byte) : (shiftLeft a).1.toNat = a.toNat * 2 % 256 :=
  BitVec.toNat_ofNat _ 8

theorem shiftLeft_snd_toNat (a : Byte) : (shiftLeft a).2.toNat = a.toNat / 128 := by
  have hbit : (shiftLeft a).2.toNat = a.toNat / 2 ^ 7 % 2 := Nat.toNat_testBit a.toNat 7
  omega

/-! ### A result and its flag written (43_alu.md R179) -/

section

variable (s : State) (x : Reg) (r : Byte × Bool)

theorem reg_writeFlagged_VF : (s.writeFlagged x r).reg VF = if r.2 then 1 else 0 := by
  rw [State.reg_writeFlagged, if_pos rfl]

theorem reg_writeFlagged_VF_toNat : ((s.writeFlagged x r).reg VF).toNat = r.2.toNat := by
  rw [reg_writeFlagged_VF]
  cases r.2 <;> rfl

theorem reg_writeFlagged_of_ne_VF (hx : x ≠ VF) : (s.writeFlagged x r).reg x = r.1 := by
  rw [State.reg_writeFlagged, if_neg hx, if_pos rfl]

theorem writeFlagged_frame : Frame { reg := fun q => q = x ∨ q = VF } s (s.writeFlagged x r) :=
  (Frame.refl _ s).writeFlagged (Or.inl rfl) (Or.inr rfl) r

/-- With VF as the destination the result is lost and only VF changes. -/
theorem writeFlagged_VF_frame : Frame { reg := (· = VF) } s (s.writeFlagged VF r) :=
  (Frame.refl _ s).writeFlagged rfl rfl r

end

/-! ### Addition and the two subtractions -/

theorem reg_writeFlagged_addCarry_VF (s : State) (x : Reg) (a b : Byte) :
    (s.writeFlagged x (addCarry a b)).reg VF = if 255 < a.toNat + b.toNat then 1 else 0 := by
  simp only [reg_writeFlagged_VF, addCarry_snd, decide_eq_true_eq]

theorem reg_writeFlagged_subNoBorrow_VF (s : State) (x : Reg) (a b : Byte) :
    (s.writeFlagged x (subNoBorrow a b)).reg VF = if b.toNat ≤ a.toNat then 1 else 0 := by
  simp only [reg_writeFlagged_VF, subNoBorrow_snd, decide_eq_true_eq]

theorem writeFlagged_subNoBorrow_subtracted (s : State) (x : Reg) (a b : Byte) :
    Subtracted a b x s (s.writeFlagged x (subNoBorrow a b)) := by
  refine ⟨fun hx => ?_, reg_writeFlagged_subNoBorrow_VF s x a b, rfl, writeFlagged_frame s x _⟩
  rw [reg_writeFlagged_of_ne_VF s x _ hx, subNoBorrow_fst_toNat]

/-- Settles O33: a destination other than VF keeps the sum when the carry is then written to VF. -/
theorem addSetsCarry : Obligations.AddSetsCarry := by
  refine fun x y => ⟨decodeWord_encode (.addReg x y), fun s hx => ⟨_, rfl, ?_, ?_, rfl, writeFlagged_frame s x _⟩⟩
  · rw [reg_writeFlagged_of_ne_VF s x _ hx, addCarry_fst_toNat]
  · exact reg_writeFlagged_addCarry_VF s x (s.reg x) (s.reg y)

/-- Settles O34: SUBN is SUB with the operands exchanged. -/
theorem subtractionsSetNotBorrow : Obligations.SubtractionsSetNotBorrow :=
  fun x y => ⟨decodeWord_encode (.sub x y), decodeWord_encode (.subn x y), fun s _ =>
    ⟨⟨_, rfl, writeFlagged_subNoBorrow_subtracted s x (s.reg x) (s.reg y)⟩,
      ⟨_, rfl, writeFlagged_subNoBorrow_subtracted s x (s.reg y) (s.reg x)⟩⟩⟩

/-- Settles O35: the flag is computed from the old registers and written over the result. -/
theorem flagIsWrittenLast : Obligations.FlagIsWrittenLast :=
  fun y s =>
    ⟨⟨_, rfl, reg_writeFlagged_addCarry_VF s VF (s.reg VF) (s.reg y), rfl, writeFlagged_VF_frame s _⟩,
      ⟨_, rfl, reg_writeFlagged_subNoBorrow_VF s VF (s.reg VF) (s.reg y), rfl, writeFlagged_VF_frame s _⟩,
      ⟨_, rfl, reg_writeFlagged_subNoBorrow_VF s VF (s.reg y) (s.reg VF), rfl, writeFlagged_VF_frame s _⟩⟩

/-! ### The two shifts -/

theorem shiftOperand_eq_ite (src : ShiftSrc) (x y : Reg) (s : State) :
    shiftOperand src x y s = if src = .X then s.reg x else s.reg y := by
  cases src <;> rfl

theorem shrWith_shiftedRight (src : ShiftSrc) (x y : Reg) (s : State) :
    ShiftedRight (if src = .X then s.reg x else s.reg y) x s (shrWith src x y s) := by
  rw [← shiftOperand_eq_ite]
  refine ⟨fun hx => ?_, ?_, rfl, writeFlagged_frame s x _⟩
  · rw [shrWith, reg_writeFlagged_of_ne_VF s x _ hx, shiftRight_fst_toNat]
  · rw [shrWith, reg_writeFlagged_VF_toNat, shiftRight_snd_toNat]

theorem shlWith_shiftedLeft (src : ShiftSrc) (x y : Reg) (s : State) :
    ShiftedLeft (if src = .X then s.reg x else s.reg y) x s (shlWith src x y s) := by
  rw [← shiftOperand_eq_ite]
  refine ⟨fun hx => ?_, ?_, rfl, writeFlagged_frame s x _⟩
  · rw [shlWith, reg_writeFlagged_of_ne_VF s x _ hx, shiftLeft_fst_toNat]
  · rw [shlWith, reg_writeFlagged_VF_toNat, shiftLeft_snd_toNat]

/-- Settles O36: the default is the instance of SHIFT_SRC that reads Vx. -/
theorem shiftsByOne : Obligations.ShiftsByOne :=
  fun x y => ⟨decodeWord_encode (.shr x y), decodeWord_encode (.shl x y), fun s =>
    ⟨⟨_, rfl, shrWith_shiftedRight .X x y s⟩, ⟨_, rfl, shlWith_shiftedLeft .X x y s⟩,
      fun p => ⟨_, rfl, shrWith_shiftedRight p.shiftSrc x y s⟩, fun p => ⟨_, rfl, shlWith_shiftedLeft p.shiftSrc x y s⟩⟩⟩

end Sys2Proof.Machine
end

section
/-! PROOFS. The keypad and timer instructions (44_keypad_and_timers.md R190 to R196): the two skips on a key, the wait for
a key, and the three timer moves. -/

namespace Sys2Proof.Machine

/-! ### Waiting for a key -/

/-- The search of R193 answers a key that is down while every lower one is up. -/
theorem State.firstPressed_eq_some {s : State} {k : Fin 16} (hk : s.keyDown k = true)
    (hlow : ∀ j < k, s.keyDown j = false) : s.firstPressed = some k := by
  rcases s.firstPressed_cases with ⟨hno, -⟩ | ⟨j, e, hj, hjlow⟩
  · simp [hno k] at hk
  · rcases lt_trichotomy j k with hlt | rfl | hgt
    · simp [hlow j hlt] at hj
    · exact e
    · simp [hjlow k hgt] at hk

theorem exec_ldVxK_of_no_key {s : State} (x : Reg) (hno : ∀ k, s.keyDown k = false) :
    exec (.ldVxK x) s = .next s := by
  rcases s.firstPressed_cases with ⟨-, e⟩ | ⟨k, -, hk, -⟩
  · simp only [exec, execLdVxK, e]
  · simp [hno k] at hk

theorem exec_ldVxK_of_lowest_key {s : State} (x : Reg) {k : Fin 16} (hk : s.keyDown k = true)
    (hlow : ∀ j < k, s.keyDown j = false) :
    exec (.ldVxK x) s = .next ((s.setReg x (BitVec.ofNat 8 k.val)).setKeyState k false).advance := by
  simp only [exec, execLdVxK, State.firstPressed_eq_some hk hlow]

theorem keyDown_advance_setKeyState_self (s : State) (k : Fin 16) (b : Bool) :
    (s.setKeyState k b).advance.keyDown k = b :=
  (State.keyDown_setKeyState s k k b).trans (if_pos rfl)

theorem key_toNat (k : Fin 16) : (BitVec.ofNat 8 k.val).toNat = k.val :=
  (BitVec.toNat_ofNat _ 8).trans (Nat.mod_eq_of_lt (by omega))

/-- Settles O39: the search finds no key and the state stays, or it finds the lowest one, whose index fits a byte. -/
theorem keyWaitStallsOrTakesLowestKey : Obligations.KeyWaitStallsOrTakesLowestKey := by
  refine fun x => ⟨decodeWord_encode (.ldVxK x), fun s => ⟨exec_ldVxK_of_no_key x, fun k hk hlow => ?_⟩⟩
  refine ⟨_, exec_ldVxK_of_lowest_key x hk hlow, ?_, keyDown_advance_setKeyState_self _ k false, rfl, ?_⟩
  · rw [State.reg_advance, State.reg_setKeyState, State.reg_setReg_self, key_toNat]
  · exact (((Frame.refl _ s).setReg rfl _).setKeyState rfl false).advance

/-! ### Skips on a key -/

section

variable {s : State} {x : Reg}

theorem stopsWith_skp (hout : 0xF < (s.reg x).toNat) : StopsWith (.skp x) s (.keyIndexError s.pc (s.reg x)) := by
  refine stopsWith_of_not_readsParameter id ?_
  rcases exec_skp_cases x s with ⟨-, e⟩ | ⟨hin, -⟩
  · exact e
  · omega

theorem stopsWith_sknp (hout : 0xF < (s.reg x).toNat) : StopsWith (.sknp x) s (.keyIndexError s.pc (s.reg x)) := by
  refine stopsWith_of_not_readsParameter id ?_
  rcases exec_sknp_cases x s with ⟨-, e⟩ | ⟨hin, -⟩
  · exact e
  · omega

variable {k : Fin 16}

theorem exec_skp_of_key (hk : (s.reg x).toNat = k.val) : exec (.skp x) s = .next (s.skipIf (s.keyDown k)) := by
  rcases exec_skp_cases x s with ⟨hout, -⟩ | ⟨hin, e⟩
  · omega
  · obtain rfl : ⟨(s.reg x).toNat, hin⟩ = k := Fin.ext hk
    exact e

theorem exec_sknp_of_key (hk : (s.reg x).toNat = k.val) : exec (.sknp x) s = .next (s.skipIf (!s.keyDown k)) := by
  rcases exec_sknp_cases x s with ⟨hout, -⟩ | ⟨hin, e⟩
  · omega
  · obtain rfl : ⟨(s.reg x).toNat, hin⟩ = k := Fin.ext hk
    exact e

end

/-- Settles O37: a value above 0xF is the error of both; else SKP tests the key it names and SKNP its negation. -/
theorem keySkips : Obligations.KeySkips := by
  refine fun x => ⟨decodeWord_encode (.skp x), decodeWord_encode (.sknp x), fun s =>
    ⟨fun hout => ⟨stopsWith_skp hout, stopsWith_sknp hout⟩, fun k hk => ⟨?_, ?_⟩⟩⟩
  · rw [exec_skp_of_key hk]
    exact exists_next_skipIf s id id
  · rw [exec_sknp_of_key hk]
    exact exists_next_skipIf s (congrArg not) (congrArg not)

/-! ### Timer moves -/

/-- Settles O38: the read of DT is a register write, the other two write one timer. -/
theorem timerMoves : Obligations.TimerMoves :=
  fun x => ⟨decodeWord_encode (.ldVxDt x), decodeWord_encode (.ldDtVx x), decodeWord_encode (.ldStVx x), fun s =>
    ⟨exists_next_setReg x s.dt s, ⟨_, rfl, rfl, rfl, instructionFrames (.ldDtVx x) s _ rfl⟩,
      ⟨_, rfl, rfl, rfl, instructionFrames (.ldStVx x) s _ rfl⟩⟩⟩

end Sys2Proof.Machine
end

section
/-! PROOFS. The address register and the memory instructions (45_index_and_memory.md R200 to R205): the one bounds check
gives the error under any parameters, and a store or a load that passes it reads back cell by cell. -/

namespace Sys2Proof.Machine

/-! ### A run of bytes out of memory (45_index_and_memory.md R205) -/

section

variable {s : State} {kmax : Nat}

theorem accessError_of_out (w : Word) (hout : 0xFFF < s.I.toNat + kmax) :
    accessError w kmax s = some (.addressError s.pc w (s.I.toNat + kmax)) :=
  if_pos hout

/-- The bounds check of a store comes before that of the glyph region, so it alone decides here (60_exceptions.md R249). -/
theorem storeError_of_out (protect : Bool) (w : Word) (hout : 0xFFF < s.I.toNat + kmax) :
    storeError protect w kmax s = some (.addressError s.pc w (s.I.toNat + kmax)) := by
  rw [storeError, accessError_of_out w hout]

variable (x : Reg)

theorem stopsWith_ldB (hout : 0xFFF < s.I.toNat + 2) :
    StopsWith (.ldB x) s (.addressError s.pc (encode (.ldB x)) (s.I.toNat + 2)) :=
  stopsWith_of_execWith fun p => by simp only [execWith, ldBWith, storeError_of_out _ _ hout, raise]

theorem stopsWith_ldMemVx (hout : 0xFFF < s.I.toNat + x.val) :
    StopsWith (.ldMemVx x) s (.addressError s.pc (encode (.ldMemVx x)) (s.I.toNat + x.val)) :=
  stopsWith_of_execWith fun p => by simp only [execWith, ldMemVxWith, storeError_of_out _ _ hout, raise]

theorem stopsWith_ldVxMem (hout : 0xFFF < s.I.toNat + x.val) :
    StopsWith (.ldVxMem x) s (.addressError s.pc (encode (.ldVxMem x)) (s.I.toNat + x.val)) :=
  stopsWith_of_not_readsParameter id (by simp only [exec, execLdVxMem, accessError_of_out _ hout, raise])

/-! ### A run of bytes in memory -/

theorem exec_ldB_of_in (hin : s.I.toNat + 2 ≤ 0xFFF) : exec (.ldB x) s = .next (s.storeAtI (bcdDigits (s.reg x))) := by
  rcases exec_ldB_cases x s with ⟨hout, -⟩ | ⟨-, e⟩
  · omega
  · exact e

theorem exec_ldMemVx_of_in (hin : s.I.toNat + x.val ≤ 0xFFF) :
    exec (.ldMemVx x) s = .next (s.storeAtI (s.firstRegs (x.val + 1))) := by
  rcases exec_ldMemVx_cases x s with ⟨hout, -⟩ | ⟨-, e⟩
  · omega
  · exact e

theorem exec_ldVxMem_of_in (hin : s.I.toNat + x.val ≤ 0xFFF) :
    exec (.ldVxMem x) s = .next (State.advance { s with regs := loadRegs s.mem s.I.toNat (x.val + 1) s.regs }) := by
  rcases exec_ldVxMem_cases x s with ⟨hout, -⟩ | ⟨-, e⟩
  · omega
  · exact e

end

/-! ### The decimal digits (45_index_and_memory.md R202) -/

theorem State.read_storeAtI (s : State) {bytes : List Byte} {k : Nat} {v : Byte} (hk : bytes[k]? = some v) :
    (s.storeAtI bytes).mem.read (s.I.toNat + k) = v := by
  rw [State.storeAtI_mem, Memory.read_writeList, if_pos (Nat.le_add_right _ _), Nat.add_sub_cancel_left,
    List.getD_eq_getElem?_getD, hk, Option.getD_some]

/-- A byte that was stored as a number below 256 reads back as that number. -/
theorem State.read_storeAtI_toNat (s : State) {bytes : List Byte} {k d : Nat} (hk : bytes[k]? = some (BitVec.ofNat 8 d))
    (hd : d < 256) : ((s.storeAtI bytes).mem.read (s.I.toNat + k)).toNat = d := by
  rw [s.read_storeAtI hk, BitVec.toNat_ofNat, Nat.mod_eq_of_lt hd]

/-- Settles O43: the three cells from I hold the digits, each of which fits a byte. -/
theorem decimalDigitsStored : Obligations.DecimalDigitsStored := by
  refine fun x => ⟨decodeWord_encode (.ldB x), fun s => ⟨stopsWith_ldB x, fun hin => ?_⟩⟩
  have hnext := exec_ldB_of_in x hin
  have hbyte : (s.reg x).toNat < 256 := (s.reg x).isLt
  refine ⟨_, hnext, ?_, ?_, ?_, rfl, instructionFrames (.ldB x) s _ hnext⟩
  · exact s.read_storeAtI_toNat (k := 0) rfl (by omega)
  · exact s.read_storeAtI_toNat (k := 1) rfl (by omega)
  · exact s.read_storeAtI_toNat (k := 2) rfl (by omega)

/-! ### Register dump and register load (45_index_and_memory.md R203, R204) -/

/-- Settles O44: the cell `I + r` holds byte `r` of the registers stored. -/
theorem registerDumpStoresInclusive : Obligations.RegisterDumpStoresInclusive := by
  refine fun x => ⟨decodeWord_encode (.ldMemVx x), fun s => ⟨stopsWith_ldMemVx x, fun hin => ?_⟩⟩
  have hnext := exec_ldMemVx_of_in x hin
  exact ⟨_, hnext, fun _ hr => exec_ldMemVx_read hnext hr, rfl, instructionFrames (.ldMemVx x) s _ hnext⟩

/-- After a register load, register `r` is what `I + r` read. -/
theorem exec_ldVxMem_reg {x r : Reg} {s t : State} (h : exec (.ldVxMem x) s = .next t) (hr : r ≤ x) :
    t.reg r = s.mem.read (s.I.toNat + r.val) := by
  obtain rfl := exec_ldVxMem_next h
  exact (getElem_loadRegs s.mem s.I.toNat (x.val + 1) s.regs r.isLt).trans (if_pos (Nat.lt_succ_of_le hr))

/-- A dump that completed stayed in memory, so a load through the same memory and I completes too and reads the cells the
dump stored. -/
theorem exec_ldVxMem_of_dump {x : Reg} {s t u : State} (hdump : exec (.ldMemVx x) s = .next t) (hmem : u.mem = t.mem)
    (hI : u.I = t.I) : ∃ v, exec (.ldVxMem x) u = .next v ∧ ∀ r : Reg, r ≤ x → v.reg r = s.reg r := by
  obtain ⟨hin, ht⟩ := ldMemVxWith_next (protect := params.glyphWriteProtect) hdump
  have hIs : u.I = s.I := by rw [hI, ht, State.storeAtI_I]
  have hload := exec_ldVxMem_of_in (s := u) x (by rwa [hIs])
  refine ⟨_, hload, fun r hr => ?_⟩
  rw [exec_ldVxMem_reg hload hr, hmem, hIs, exec_ldMemVx_read hdump hr]

/-- Settles O45: a load reads the registers off the cells from I, and after a dump those cells hold the dumped registers. -/
theorem registerLoadReadsInclusive : Obligations.RegisterLoadReadsInclusive := by
  refine fun x => ⟨decodeWord_encode (.ldVxMem x), fun s => ⟨stopsWith_ldVxMem x, fun hin => ?_⟩,
    fun _ _ _ => exec_ldVxMem_of_dump⟩
  have hnext := exec_ldVxMem_of_in x hin
  exact ⟨_, hnext, fun _ hr => exec_ldVxMem_reg hnext hr, rfl, instructionFrames (.ldVxMem x) s _ hnext⟩

/-! ### The address register (45_index_and_memory.md R200, R201) -/

theorem reg_setFlag_VF (s : State) (f : Bool) : (s.setFlag f).reg VF = if f then 1 else 0 :=
  State.reg_setReg_self s VF _

/-- Whatever the reading of ADDI_FLAG, I takes the 16-bit sum and VF the flag that the reading gives. -/
theorem addIWith_addedToI {rule : AddiFlag} {f : Prop} (x : Reg) (s : State)
    (hf : addiFlag rule s.I (s.reg x) = true ↔ f) : AddedToI f x s (addIWith rule x s) := by
  have hVF : (addIWith rule x s).reg VF = if addiFlag rule s.I (s.reg x) then 1 else 0 := reg_setFlag_VF _ _
  refine ⟨BitVec.toNat_ofNat _ 16, fun h => ?_, fun h => ?_, rfl, ?_⟩
  · rw [hVF, if_pos (hf.2 h)]
  · rw [hVF, if_neg (mt hf.1 h)]
  · exact (((Frame.refl _ s).withI trivial _).setFlag rfl _).advance

/-- Settles O41: each reading of ADDI_FLAG decides its own condition, and the default is the first of them. -/
theorem addToAddressRegister : Obligations.AddToAddressRegister := by
  refine fun x => ⟨decodeWord_encode (.addI x), fun s =>
    ⟨⟨_, rfl, addIWith_addedToI x s decide_eq_true_iff⟩, fun p => ⟨_, rfl, ?_, ?_, ?_⟩⟩⟩ <;>
  exact fun hp => addIWith_addedToI x s (hp ▸ decide_eq_true_iff)

/-- The last glyph starts at 5 * 15 = 75, so the address fits 16 bits. -/
theorem glyphAddress_toNat (v : Byte) : (glyphAddress v).toNat = 5 * (v.toNat % 16) :=
  (BitVec.toNat_ofNat _ 16).trans (Nat.mod_eq_of_lt (by omega))

/-- Settles O42: I takes the glyph's address, with no bit lost. -/
theorem glyphAddressFromLowNibble : Obligations.GlyphAddressFromLowNibble :=
  fun x => ⟨decodeWord_encode (.ldF x), fun s =>
    ⟨_, rfl, glyphAddress_toNat (s.reg x), rfl, instructionFrames (.ldF x) s _ rfl⟩⟩

end Sys2Proof.Machine
end

section
/-! PROOFS. The display (46_display.md R220, R221): the rows of one sprite land on different pixels, so drawing it flips each
pixel it covers once and hits one exactly when it was set before. -/

namespace Sys2Proof.Machine

/-! ### Pixels -/

/-- A pixel is the same under coordinates that wrap to the same column and row (46_display.md R221). -/
theorem Pixels.at_congr (fb : Pixels) {cx cy dx dy : Nat} (hx : cx % 64 = dx % 64) (hy : cy % 32 = dy % 32) :
    fb.at cx cy = fb.at dx dy := by
  have hindex : pixelIndex cx cy = pixelIndex dx dy := Fin.ext (pixelIndex_inj.2 ⟨hx, hy⟩)
  simp only [Pixels.at, hindex]

/-- The 64 columns and 32 rows are all of the buffer. -/
theorem Pixels.ext_at {f g : Pixels} (h : ∀ cx cy, cx < 64 → cy < 32 → f.at cx cy = g.at cx cy) : f = g := by
  refine Vector.ext fun i hi => ?_
  have hpixel := h (i % 64) (i / 64) (by omega) (by omega)
  simpa only [Pixels.at, pixelIndex_of_lt hi] using hpixel

theorem Pixels.at_clear (cx cy : Nat) : Pixels.at (Vector.replicate 2048 false) cx cy = false :=
  Vector.getElem_replicate _

/-- A pixel changes exactly when the bit it takes in is set. -/
theorem bool_xor_ne_left : ∀ {a b : Bool}, (a ^^ b) ≠ a ↔ b = true := by decide

/-- A pixel flipped twice or never is as before. -/
theorem bool_eq_of_ne_iff_ne : ∀ {a b c : Bool}, (c ≠ b ↔ b ≠ a) → c = a := by decide

/-! ### What one sprite row covers -/

/-- Some set bit of the sprite row `b`, drawn as row number `row`, lands on the pixel (`cx`, `cy`) after the wrap. -/
def RowCovers (ox oy row : Nat) (b : Byte) (cx cy : Nat) : Prop :=
  ∃ col < 8, spriteBit b col = true ∧ cx % 64 = (ox + col) % 64 ∧ cy % 32 = (oy + row) % 32

/-- The columns that `drawRows` draws, in its own spelling. -/
theorem mem_columns {col : Nat} : col ∈ [0, 1, 2, 3, 4, 5, 6, 7] ↔ col < 8 := by
  simp only [List.mem_cons, List.not_mem_nil, or_false]
  omega

section

variable (ox oy row : Nat) (b : Byte) (d : Drawing)

theorem drawColumns_at_ne_iff (cx cy : Nat) :
    (drawColumns ox oy row b [0, 1, 2, 3, 4, 5, 6, 7] d).1.at cx cy ≠ d.1.at cx cy ↔ RowCovers ox oy row b cx cy := by
  obtain ⟨hpixels, -⟩ := drawColumns_spec ox oy row b _ (by decide) (fun _ => mem_columns.1) d
  simp only [hpixels, bool_xor_ne_left, decide_eq_true_iff, mem_columns, RowCovers]

theorem drawColumns_collision_iff :
    (drawColumns ox oy row b [0, 1, 2, 3, 4, 5, 6, 7] d).2 = true ↔
      d.2 = true ∨ ∃ cx cy, RowCovers ox oy row b cx cy ∧ d.1.at cx cy = true := by
  obtain ⟨-, hhit⟩ := drawColumns_spec ox oy row b _ (by decide) (fun _ => mem_columns.1) d
  rw [hhit, Bool.or_eq_true, decide_eq_true_iff]
  refine or_congr_right ⟨?_, ?_⟩
  · rintro ⟨col, hcol, hbit, hset⟩
    exact ⟨_, _, ⟨col, mem_columns.1 hcol, hbit, rfl, rfl⟩, hset⟩
  · rintro ⟨cx, cy, ⟨col, hcol, hbit, hx, hy⟩, hset⟩
    exact ⟨col, mem_columns.2 hcol, hbit, d.1.at_congr hx hy ▸ hset⟩

end

/-! ### What the rows of a sprite cover -/

/-- Some set bit of the `n` sprite rows stored from `a`, the first of them drawn as row number `row`, lands on the pixel
(`cx`, `cy`) after the wrap. -/
def RowsCover (m : Memory) (ox oy a n row cx cy : Nat) : Prop :=
  ∃ r < n, RowCovers ox oy (row + r) (m.read (a + r)) cx cy

theorem rowsCover_succ {m : Memory} {ox oy a n row cx cy : Nat} :
    RowsCover m ox oy a (n + 1) row cx cy ↔
      RowCovers ox oy row (m.read a) cx cy ∨ RowsCover m ox oy (a + 1) n (row + 1) cx cy := by
  simp only [RowsCover, Nat.exists_lt_succ_left, Nat.add_zero, Nat.add_assoc, Nat.add_comm 1]

/-- The wrap brings no later row back onto an earlier one: a sprite has fewer rows than the screen. -/
theorem RowCovers.not_rowsCover {m : Memory} {ox oy a n row cx cy : Nat} {b : Byte} (h : RowCovers ox oy row b cx cy)
    (hn : n < 32) : ¬ RowsCover m ox oy a n (row + 1) cx cy := by
  rintro ⟨r, hr, -, -, -, -, hlater⟩
  obtain ⟨-, -, -, -, hhere⟩ := h
  omega

section

variable (m : Memory) (ox oy : Nat)

/-- The rows flip exactly the pixels they cover. -/
theorem drawRows_at_ne_iff {n : Nat} (hn : n ≤ 32) (a row : Nat) (d : Drawing) (cx cy : Nat) :
    (drawRows ox oy (m.readList a n) row d).1.at cx cy ≠ d.1.at cx cy ↔ RowsCover m ox oy a n row cx cy := by
  induction n generalizing a row d with
  | zero => simp [Memory.readList, drawRows, RowsCover]
  | succ n ih =>
    have hrow := drawColumns_at_ne_iff ox oy row (m.read a) d cx cy
    rw [rowsCover_succ, Memory.readList, drawRows]
    by_cases hcov : RowCovers ox oy row (m.read a) cx cy
    · rw [not_ne_iff.1 (mt (ih (by omega) (a + 1) (row + 1) _).1 (hcov.not_rowsCover (by omega)))]
      exact iff_of_true (hrow.2 hcov) (.inl hcov)
    · rw [← not_ne_iff.1 (mt hrow.1 hcov), ih (by omega), or_iff_right hcov]

/-- The rows hit a set pixel exactly when one they cover was set before the first of them. -/
theorem drawRows_collision_iff {n : Nat} (hn : n ≤ 32) (a row : Nat) (d : Drawing) :
    (drawRows ox oy (m.readList a n) row d).2 = true ↔
      d.2 = true ∨ ∃ cx cy, RowsCover m ox oy a n row cx cy ∧ d.1.at cx cy = true := by
  induction n generalizing a row d with
  | zero => simp [Memory.readList, drawRows, RowsCover]
  | succ n ih =>
    have hkept : ∀ cx cy, RowsCover m ox oy (a + 1) n (row + 1) cx cy →
        (drawColumns ox oy row (m.read a) [0, 1, 2, 3, 4, 5, 6, 7] d).1.at cx cy = d.1.at cx cy := fun cx cy hlater =>
      not_ne_iff.1 fun hne => ((drawColumns_at_ne_iff ox oy row _ d cx cy).1 hne).not_rowsCover (by omega) hlater
    rw [Memory.readList, drawRows, ih (by omega), drawColumns_collision_iff, or_assoc]
    simp only [rowsCover_succ, or_and_right, exists_or]
    refine or_congr_right (or_congr_right (exists_congr fun cx => exists_congr fun cy => and_congr_right fun hlater => ?_))
    rw [hkept cx cy hlater]

end

/-! ### The sprite at I -/

theorem covered_iff_rowsCover {s : State} {ox oy n cx cy : Nat} (hx : cx < 64) (hy : cy < 32) :
    Covered s ox oy n cx cy ↔ RowsCover s.mem ox oy s.I.toNat n 0 cx cy := by
  simp only [Covered, BitLands, RowsCover, RowCovers, spriteBit, Nat.mod_eq_of_lt hx, Nat.mod_eq_of_lt hy, Nat.zero_add,
    exists_and_left]

theorem Covered.lt {s : State} {ox oy n cx cy : Nat} (h : Covered s ox oy n cx cy) : cx < 64 ∧ cy < 32 := by
  obtain ⟨row, col, -, -, -, rfl, rfl⟩ := h
  exact ⟨Nat.mod_lt _ (by decide), Nat.mod_lt _ (by decide)⟩

/-- Every pixel the rows cover is a pixel of the screen after the wrap. -/
theorem collides_iff_rowsCover {s : State} {ox oy n : Nat} :
    Collides s ox oy n ↔ ∃ cx cy, RowsCover s.mem ox oy s.I.toNat n 0 cx cy ∧ s.fb.at cx cy = true := by
  constructor
  · rintro ⟨cx, cy, hcov, hset⟩
    obtain ⟨hx, hy⟩ := hcov.lt
    exact ⟨cx, cy, (covered_iff_rowsCover hx hy).1 hcov, hset⟩
  · rintro ⟨cx, cy, ⟨r, hr, col, hcol, hbit, hx, hy⟩, hset⟩
    rw [Nat.zero_add] at hy
    refine ⟨cx % 64, cy % 32, ⟨r, col, hr, hcol, hbit, hx, hy⟩, ?_⟩
    rwa [s.fb.at_congr (Nat.mod_mod _ _) (Nat.mod_mod _ _)]

/-- Only memory and I decide what a sprite covers. -/
theorem covered_congr {s u : State} (hmem : u.mem = s.mem) (hI : u.I = s.I) (ox oy n cx cy : Nat) :
    Covered u ox oy n cx cy ↔ Covered s ox oy n cx cy := by
  simp only [Covered, BitLands, hmem, hI]

/-! ### DRW -/

section

variable {x y : Reg} {n : Nibble} {s t : State}

theorem stopsWith_drw (hn : 0 < n.val) (hout : 0xFFF < s.I.toNat + n.val - 1) :
    StopsWith (.drw x y n) s (.addressError s.pc (encode (.drw x y n)) (s.I.toNat + n.val - 1)) := by
  refine stopsWith_of_not_readsParameter id ?_
  rcases exec_drw_cases x y n s with ⟨-, e⟩ | ⟨hin, -⟩
  · exact e
  · omega

/-- DRW completes exactly when it reads no memory or its last row is in memory. -/
theorem exists_exec_drw_next_iff :
    (∃ t, exec (.drw x y n) s = .next t) ↔ n.val = 0 ∨ s.I.toNat + n.val - 1 ≤ 0xFFF := by
  rcases exec_drw_cases x y n s with ⟨hout, e⟩ | ⟨hin, e⟩
  · simp only [e, reduceCtorEq, exists_false, false_iff]
    omega
  · exact iff_of_true ⟨_, e⟩ hin

theorem exec_drw_mem_I (h : exec (.drw x y n) s = .next t) : t.mem = s.mem ∧ t.I = s.I := by
  obtain rfl := exec_drw_next h
  exact ⟨rfl, rfl⟩

theorem exec_drw_at_ne_iff (h : exec (.drw x y n) s = .next t) {cx cy : Nat} (hx : cx < 64) (hy : cy < 32) :
    t.fb.at cx cy ≠ s.fb.at cx cy ↔ Covered s ((s.reg x).toNat % 64) ((s.reg y).toNat % 32) n.val cx cy := by
  obtain rfl := exec_drw_next h
  rw [covered_iff_rowsCover hx hy]
  exact drawRows_at_ne_iff s.mem _ _ (by omega) s.I.toNat 0 (s.fb, false) cx cy

theorem drawing_collision_iff :
    (drawing x y n s).2 = true ↔ Collides s ((s.reg x).toNat % 64) ((s.reg y).toNat % 32) n.val := by
  rw [collides_iff_rowsCover, drawing, drawSprite, drawRows_collision_iff s.mem _ _ (by omega)]
  exact or_iff_right Bool.false_ne_true

theorem exec_drw_VF (h : exec (.drw x y n) s = .next t) : t.reg VF = if (drawing x y n s).2 then 1 else 0 := by
  obtain rfl := exec_drw_next h
  exact reg_setFlag_VF _ _

theorem exec_drw_VF_of_collides (h : exec (.drw x y n) s = .next t)
    (hhit : Collides s ((s.reg x).toNat % 64) ((s.reg y).toNat % 32) n.val) : t.reg VF = 1 := by
  rw [exec_drw_VF h, if_pos (drawing_collision_iff.2 hhit)]

theorem exec_drw_VF_of_not_collides (h : exec (.drw x y n) s = .next t)
    (hmiss : ¬ Collides s ((s.reg x).toNat % 64) ((s.reg y).toNat % 32) n.val) : t.reg VF = 0 := by
  rw [exec_drw_VF h, if_neg (mt drawing_collision_iff.1 hmiss)]

theorem not_collides_of_clear {ox oy k : Nat} (hclear : ∀ cx cy, s.fb.at cx cy = false) : ¬ Collides s ox oy k := by
  rintro ⟨cx, cy, -, hset⟩
  exact Bool.false_ne_true ((hclear cx cy).symm.trans hset)

end

/-- Settles O49: the flipped pixels and the hit are those of the rows at I, which end in memory or are none. -/
theorem drawFlipsExactlyTheCoveredPixels : Obligations.DrawFlipsExactlyTheCoveredPixels := by
  refine fun x y n => ⟨decodeWord_encode (.drw x y n), fun s => ⟨stopsWith_drw, fun hin => ?_⟩⟩
  obtain ⟨t, hnext⟩ := exists_exec_drw_next_iff.2 hin
  exact ⟨t, hnext, fun _ _ => exec_drw_at_ne_iff hnext, exec_drw_VF_of_collides hnext, exec_drw_VF_of_not_collides hnext,
    pcUpdateTable.1 _ s t hnext, instructionFrames (.drw x y n) s t hnext⟩

/-! ### Two draws, and a draw after a clear -/

/-- Settles O50: the second draw covers the same pixels as the first, so it flips each of them back, and every one that the
first draw set is hit. -/
theorem drawTwiceRestoresPixels : Obligations.DrawTwiceRestoresPixels := by
  intro x y n s t u hfirst hfb hmem hI hx hy
  obtain ⟨hmem', hI'⟩ := exec_drw_mem_I hfirst
  have hIs : u.I = s.I := hI.trans hI'
  have hin := exists_exec_drw_next_iff.1 ⟨t, hfirst⟩
  obtain ⟨v, hsecond⟩ : ∃ v, exec (.drw x y n) u = .next v := exists_exec_drw_next_iff.2 (by rwa [hIs])
  have hcov := covered_congr (hmem.trans hmem') hIs ((s.reg x).toNat % 64) ((s.reg y).toNat % 32) n.val
  refine ⟨v, hsecond, Pixels.ext_at fun cx cy hcx hcy => ?_, fun hclear ⟨cx, cy, hlands⟩ => ⟨?_, ?_⟩⟩
  · have hagain := exec_drw_at_ne_iff hsecond hcx hcy
    rw [hx, hy, hcov, ← exec_drw_at_ne_iff hfirst hcx hcy, hfb] at hagain
    exact bool_eq_of_ne_iff_ne hagain
  · exact exec_drw_VF_of_not_collides hfirst (not_collides_of_clear fun cx cy => hclear (pixelIndex cx cy))
  · obtain ⟨hcx, hcy⟩ := hlands.lt
    have hflip := (exec_drw_at_ne_iff hfirst hcx hcy).2 hlands
    have hset : u.fb.at cx cy = true := by
      rw [hfb]
      exact Bool.eq_true_of_not_eq_false fun hoff => hflip (hoff.trans (hclear (pixelIndex cx cy)).symm)
    refine exec_drw_VF_of_collides hsecond ⟨cx, cy, ?_, hset⟩
    rw [hx, hy]
    exact (hcov cx cy).2 hlands

/-- Settles O51: on a clear buffer a pixel is set exactly when it was flipped, and nothing is hit. -/
theorem clearThenDrawShowsSprite : Obligations.ClearThenDrawShowsSprite := by
  intro x y n s t u hcls hdraw
  cases hcls
  refine ⟨exec_drw_VF_of_not_collides hdraw (not_collides_of_clear Pixels.at_clear), fun cx cy hcx hcy => ?_⟩
  have hflip := exec_drw_at_ne_iff hdraw hcx hcy
  rwa [State.advance_fb, Pixels.at_clear, Bool.ne_false_iff] at hflip

/-- Settles O48: the buffer is 2048 times false. -/
theorem clearScreenResult : Obligations.ClearScreenResult :=
  ⟨decodeWord_encode .cls, fun s =>
    ⟨_, rfl, fun _ => Vector.getElem_replicate _, rfl, instructionFrames .cls s _ rfl⟩⟩

end Sys2Proof.Machine
end

section
/-! PROOFS. Transactions (00_scope.md R6): what each can answer, said once; the errors an instruction or a transaction reports
(60_exceptions.md R241, R250); the ticks, the key events and the snapshots (R255 to R258). -/

namespace Sys2Proof.Machine

/-! ### The error of an instruction -/

theorem Answers.exists_next_iff {r : StepResult} {e : Option Fault} (h : Answers r e) :
    (∃ t, r = .next t) ↔ e = none := by
  cases h <;> simp

/-- Settles O7: every answer is the own error, or a next state where there is none. -/
theorem instructionErrorsExactly : Obligations.InstructionErrorsExactly := by
  intro i s
  have hanswer := exec_answers_ownError i s
  exact ⟨hanswer.eq_fault_iff, hanswer.ne_refused, hanswer.exists_next_iff⟩

/-! ### What a defined transaction answers -/

section

variable {y z : System} {r : Reply}

theorem System.apply_load_cases {image : List Byte} (h : System.apply (.load image) y = .ok (z, r)) :
    (∃ s, load image y.machine = .ok s ∧ z = ⟨s, .loaded, y.params⟩ ∧ r = .ok) ∨
      ∃ f, load image y.machine = .error f ∧ z = ⟨y.machine, .loaded, y.params⟩ ∧ r = .error f := by
  simp only [System.apply] at h
  split at h
  · split at h
    · next s hload =>
      cases h
      exact .inl ⟨s, hload, rfl, rfl⟩
    · next f hload =>
      cases h
      exact .inr ⟨f, hload, rfl, rfl⟩
  · cases h

theorem System.apply_step_cases (h : System.apply .step y = .ok (z, r)) :
    (∃ s, stepWith y.params y.machine = .next s ∧ z = ⟨s, .running, y.params⟩ ∧ r = .ok) ∨
      ∃ f, stepWith y.params y.machine = .fault f ∧ z = ⟨y.machine, .running, y.params⟩ ∧ r = .error f := by
  simp only [System.apply] at h
  split at h
  · next s hstep =>
    cases h
    exact .inl ⟨s, hstep, rfl, rfl⟩
  · next f hstep =>
    cases h
    exact .inr ⟨f, hstep, rfl, rfl⟩
  · cases h

theorem System.apply_setKey_of_le {index : Nat} (hk : index ≤ 15) (pressed : Bool) (y : System) :
    System.apply (.setKey index pressed) y =
      .ok (⟨y.machine.setKeyState ⟨index, by omega⟩ pressed, y.phase, y.params⟩, .ok) := by
  simp only [System.apply, setKey, KeyIndexOk, dif_pos hk]

theorem System.apply_setKey_of_gt {index : Nat} (hk : 15 < index) (pressed : Bool) (y : System) :
    System.apply (.setKey index pressed) y = .error (.keyIndexOutsideDomain index) := by
  simp only [System.apply, setKey, KeyIndexOk, dif_neg hk.not_ge]

theorem System.apply_setKey_ok {index : Nat} {pressed : Bool}
    (h : System.apply (.setKey index pressed) y = .ok (z, r)) :
    ∃ hk : index ≤ 15, z = ⟨y.machine.setKeyState ⟨index, by omega⟩ pressed, y.phase, y.params⟩ ∧ r = .ok := by
  rcases Nat.lt_or_ge 15 index with hk | hk
  · rw [System.apply_setKey_of_gt hk] at h
    cases h
  · rw [System.apply_setKey_of_le hk] at h
    cases h
    exact ⟨hk, rfl, rfl⟩

end

/-- Settles O57: only a load and a step can report an error, and both then keep the machine. -/
theorem errorLeavesMachineUnchanged : Obligations.ErrorLeavesMachineUnchanged := by
  intro t y z f h
  cases t with
  | reset | tickTimers | frameBuffer => cases h
  | load image =>
    rcases System.apply_load_cases h with ⟨_, -, -, hr⟩ | ⟨_, -, rfl, -⟩
    · cases hr
    · rfl
  | step =>
    rcases System.apply_step_cases h with ⟨_, -, -, hr⟩ | ⟨_, -, rfl, -⟩
    · cases hr
    · rfl
  | setKey index pressed =>
    obtain ⟨-, -, hr⟩ := System.apply_setKey_ok h
    cases hr

/-! ### Keys and snapshots (60_exceptions.md R257, R258) -/

/-- Settles O53: an index in the domain names one key, which alone is written. -/
theorem setKeyWritesOneKey : Obligations.SetKeyWritesOneKey := by
  refine fun index pressed y => ⟨fun hk => ?_, fun hk => System.apply_setKey_of_gt hk pressed y⟩
  refine ⟨_, System.apply_setKey_of_le hk pressed y, rfl, ?_, rfl, (Frame.refl _ _).setKeyState rfl pressed⟩
  rw [State.keyDown_setKeyState, if_pos rfl]

/-- Settles O54: no wrap takes place inside the 64 columns and 32 rows. -/
theorem frameBufferIsReadOnlySnapshot : Obligations.FrameBufferIsReadOnlySnapshot := by
  refine fun y => ⟨y.machine.fb, rfl, fun cx cy hx hy => ?_⟩
  simp only [Pixels.at, pixelIndex, Nat.mod_eq_of_lt hx, Nat.mod_eq_of_lt hy]

/-! ### Ticks (60_exceptions.md R255) -/

theorem tickTimer_toNat (v : Byte) : (tickTimer v).toNat = v.toNat - 1 := by
  unfold tickTimer
  split
  · next h => simp [h]
  · next h => bv_omega

theorem tickTimers_frame (s : State) : Frame { dt := True, st := True } s (tickTimers s) :=
  ((Frame.refl _ s).withDt trivial (tickTimer s.dt)).withSt trivial (tickTimer s.st)

theorem System.run_tickTimers (n : Nat) (y : System) :
    ∃ z rs, System.run (List.replicate n .tickTimers) y = .ok (z, rs) ∧
      z.machine.dt.toNat = y.machine.dt.toNat - n ∧ z.machine.st.toNat = y.machine.st.toNat - n ∧
      z.machine.pc = y.machine.pc ∧ Frame { dt := True, st := True } y.machine z.machine := by
  induction n generalizing y with
  | zero => exact ⟨y, [], rfl, rfl, rfl, rfl, Frame.refl _ _⟩
  | succ n ih =>
    obtain ⟨z, rs, hrun, hdt, hst, hpc, hframe⟩ := ih ⟨tickTimers y.machine, y.phase, y.params⟩
    have hdt' := tickTimer_toNat y.machine.dt
    have hst' := tickTimer_toNat y.machine.st
    simp only [tickTimers] at hdt hst
    refine ⟨z, .ok :: rs, ?_, by omega, by omega, hpc, (tickTimers_frame _).trans hframe⟩
    simp only [List.replicate_succ, System.run, System.apply, hrun]

/-- Settles O52: one tick, and by induction any number of them. -/
theorem ticksCountTimersDown : Obligations.TicksCountTimersDown :=
  ⟨fun s => ⟨tickTimer_toNat s.dt, tickTimer_toNat s.st, rfl, tickTimers_frame s⟩, System.run_tickTimers⟩

/-! ### An error repeats (60_exceptions.md R252) -/

/-- The elements that the host writes between two steps: the timers and the keys. -/
def State.withHostInputs (s : State) (dt st : Byte) (key : Vector Bool 16) : State :=
  { s with dt := dt, st := st, key := key }

section

variable {p : Params} {i : Instr} {s : State} {f : Fault} (dt st : Byte) (key : Vector Bool 16)

/-- No condition of 60_exceptions.md R241 looks at the timers or the keys. -/
theorem ownError_withHostInputs (w : Word) (i : Instr) (s : State) :
    ownError w i (s.withHostInputs dt st key) = ownError w i s := by
  cases i <;> rfl

theorem exec_fault_withHostInputs (h : exec i s = .fault f) : exec i (s.withHostInputs dt st key) = .fault f := by
  rw [(exec_answers_ownError i _).eq_fault_iff] at h ⊢
  rwa [ownError_withHostInputs]

theorem ldBWith_eq_fault_iff {protect : Bool} {x : Reg} :
    ldBWith protect x s = .fault f ↔ storeError protect (encode (.ldB x)) 2 s = some f := by
  rcases ldBWith_cases protect x s with ⟨g, hcheck, e⟩ | ⟨hcheck, e⟩ <;> simp [hcheck, e]

theorem ldMemVxWith_eq_fault_iff {protect : Bool} {x : Reg} :
    ldMemVxWith protect x s = .fault f ↔ storeError protect (encode (.ldMemVx x)) x.val s = some f := by
  rcases ldMemVxWith_cases protect x s with ⟨g, hcheck, e⟩ | ⟨hcheck, e⟩ <;> simp [hcheck, e]

theorem storeError_withHostInputs (protect : Bool) (w : Word) (kmax : Nat) (s : State) :
    storeError protect w kmax (s.withHostInputs dt st key) = storeError protect w kmax s := rfl

/-- Of the instructions that read a parameter only the two stores raise an error, by a check of I and pc. -/
theorem execWith_fault_withHostInputs (h : execWith p i s = .fault f) :
    execWith p i (s.withHostInputs dt st key) = .fault f := by
  by_cases hi : readsParameter i
  · cases i with
    | shr | shl | addI => cases h
    | ldB x =>
      simp only [execWith, ldBWith_eq_fault_iff, storeError_withHostInputs] at h ⊢
      exact h
    | ldMemVx x =>
      simp only [execWith, ldMemVxWith_eq_fault_iff, storeError_withHostInputs] at h ⊢
      exact h
    | _ => exact hi.elim
  · rw [execWith_of_not_readsParameter p _ hi] at h ⊢
    exact exec_fault_withHostInputs dt st key h

theorem stepWith_fault_withHostInputs (h : stepWith p s = .fault f) :
    stepWith p (s.withHostInputs dt st key) = .fault f := by
  have hfetch : fetchDecode (s.withHostInputs dt st key) = fetchDecode s := rfl
  unfold stepWith at h ⊢
  rw [hfetch]
  cases hdec : fetchDecode s with
  | error g => rwa [hdec] at h
  | ok i =>
    rw [hdec] at h
    exact execWith_fault_withHostInputs dt st key h

end

/-- Settles O58: a step that reports an error changes nothing, and what may come in between writes timers and keys alone. -/
theorem stepErrorRepeats : Obligations.StepErrorRepeats := by
  intro ts y z rs f hts hfault hrun
  refine System.run_keeps (P := fun u => stepWith u.params u.machine = .fault f) ?_ hrun hfault
  intro t ht u v r happly hu
  cases t with
  | reset | load => exact (hts _ ht).elim
  | step =>
    rw [System.apply_step_fault hu] at happly
    cases happly
    exact hu
  | tickTimers =>
    cases happly
    exact stepWith_fault_withHostInputs _ _ u.machine.key hu
  | setKey index pressed =>
    obtain ⟨-, rfl, -⟩ := System.apply_setKey_ok happly
    exact stepWith_fault_withHostInputs u.machine.dt u.machine.st _ hu
  | frameBuffer =>
    cases happly
    exact hu

/-! ### The stall (60_exceptions.md R264, 70_reset_and_hazards.md R289) -/

/-- `System.run_keeps` with the replies: what holds of every reply of the kept systems holds of all the run's replies. -/
theorem System.run_keeps_replies {P : System → Prop} {Q : Reply → Prop} {ts : List Transaction} {y z : System}
    {rs : List Reply}
    (hkeep : ∀ t ∈ ts, ∀ (u v : System) (r : Reply), System.apply t u = .ok (v, r) → P u → P v ∧ Q r)
    (h : System.run ts y = .ok (z, rs)) (hy : P y) : P z ∧ ∀ r ∈ rs, Q r := by
  induction ts generalizing y rs with
  | nil =>
    cases h
    exact ⟨hy, by simp⟩
  | cons t ts ih =>
    obtain ⟨y', r, rs', happly, hrun, rfl⟩ := System.run_cons h
    obtain ⟨hy', hr⟩ := hkeep t (by simp) y y' r happly hy
    obtain ⟨hz, hrs⟩ := ih (fun t' ht' => hkeep t' (by simp [ht'])) hrun hy'
    exact ⟨hz, by simpa using ⟨hr, hrs⟩⟩

/-- `t` is `s` but for the two timers. -/
def SameButTimers (s t : State) : Prop := t = { s with dt := t.dt, st := t.st }

theorem SameButTimers.trans {s t u : State} (hst : SameButTimers s t) (htu : SameButTimers t u) : SameButTimers s u :=
  calc u = { t with dt := u.dt, st := u.st } := htu
    _ = { s with dt := u.dt, st := u.st } := congrArg (fun v : State => { v with dt := u.dt, st := u.st }) hst

/-- The machine stands at LD Vx, K and no key is pressed. -/
structure WaitsForKey (x : Reg) (s : State) : Prop where
  pc : s.pc.toNat ≤ 0xFFE
  word : decodeWord s.fetchWord = some (.ldVxK x)
  keys : ∀ k, s.keyDown k = false

section

variable {x : Reg} {s : State}

theorem WaitsForKey.stepWith_eq (h : WaitsForKey x s) (p : Params) : stepWith p s = .next s :=
  (stepWith_eq_execWith p h.pc h.word).trans (exec_ldVxK_of_no_key x h.keys)

/-- Releasing a key that is not pressed does nothing. -/
theorem WaitsForKey.setKeyState_false (h : WaitsForKey x s) (k : Fin 16) : s.setKeyState k false = s := by
  have hkey : s.key.set k.val false = s.key := by
    rw [← h.keys k]
    exact Vector.set_getElem_self _
  simp only [State.setKeyState, hkey]

theorem WaitsForKey.of_sameButTimers {t : State} (h : WaitsForKey x s) (hst : SameButTimers s t) : WaitsForKey x t := by
  rw [hst]
  exact ⟨h.pc, h.word, h.keys⟩

theorem WaitsForKey.apply {t : Transaction} {u v : System} {r : Reply} (h : WaitsForKey x u.machine)
    (ht : t.PressesNoKey) (happly : System.apply t u = .ok (v, r)) :
    SameButTimers u.machine v.machine ∧ ∀ f, r ≠ .error f := by
  cases t with
  | reset | load => exact ht.elim
  | step =>
    rw [System.apply_step_next (h.stepWith_eq u.params)] at happly
    cases happly
    exact ⟨rfl, nofun⟩
  | tickTimers =>
    cases happly
    exact ⟨rfl, nofun⟩
  | setKey index pressed =>
    obtain rfl : pressed = false := ht
    obtain ⟨hk, rfl, rfl⟩ := System.apply_setKey_ok happly
    refine ⟨?_, nofun⟩
    rw [h.setKeyState_false]
    rfl
  | frameBuffer =>
    cases happly
    exact ⟨rfl, nofun⟩

end

/-- Settles O40: by induction on the transactions, none of which changes more than the timers. -/
theorem stallLastsUntilKeyPress : Obligations.StallLastsUntilKeyPress := by
  intro x ts y z rs hpc hword hkeys hts hrun
  have hwaits : WaitsForKey x y.machine := ⟨hpc, hword, hkeys⟩
  have hkeep : ∀ t ∈ ts, ∀ (u v : System) (r : Reply), System.apply t u = .ok (v, r) →
      SameButTimers y.machine u.machine → SameButTimers y.machine v.machine ∧ ∀ f, r ≠ .error f := by
    intro t ht u v r happly hu
    obtain ⟨hv, hr⟩ := (hwaits.of_sameButTimers hu).apply (hts t ht) happly
    exact ⟨hu.trans hv, hr⟩
  obtain ⟨hz, hrs⟩ := System.run_keeps_replies (P := fun u => SameButTimers y.machine u.machine)
    (Q := fun r => ∀ f, r ≠ .error f) hkeep hrun rfl
  exact ⟨hz, fun f hf => hrs _ hf f rfl⟩

end Sys2Proof.Machine
end

section
/-! PROOFS. Reset and load (70_reset_and_hazards.md R280 to R284): what each leaves in memory, and the place of a load between
a reset and the first step. -/

namespace Sys2Proof.Machine

/-! ### Reset (70_reset_and_hazards.md R280, R281) -/

/-- Settles O18: the table lies over the cells below 0x50, and the others keep their reset contents, which are 0. -/
theorem resetForEveryGlyphTable : Obligations.ResetForEveryGlyphTable := by
  refine fun table hlen => ⟨fun a => ?_, (resetWith_inv table).memory, rfl⟩
  have hread : (State.resetWith table).mem.read a = table.getD a (resetByte a) := by
    rw [State.resetWith, Memory.read_writeList, if_pos a.zero_le, Nat.sub_zero, List.take_of_length_le hlen.le]
    rfl
  rw [hread]
  rcases Nat.lt_or_ge a 0x50 with ha | ha
  · simp only [List.getD_eq_getElem _ _ (hlen.symm ▸ ha : a < table.length)]
  · rw [resetByte_of_glyphTable_end_le ha]

/-- At the default table every cell reads as in `State.reset`, so the canonical memories are one. -/
theorem resetWith_default : State.resetWith params.glyphTable = State.reset := by
  obtain ⟨hread, hwf, hrest⟩ := resetForEveryGlyphTable params.glyphTable rfl
  have hmem : (State.resetWith params.glyphTable).mem = State.reset.mem :=
    memoryIsDeterminedByReads _ _ hwf State.reset_mem_wf fun a _ => hread a
  rwa [← hmem] at hrest

/-- Settles O19: the transaction looks at nothing of the machine but the count of random bytes. -/
theorem resetForgetsEverything : Obligations.ResetForgetsEverything :=
  ⟨fun _ => ⟨_, rfl, rfl, rfl, rfl⟩, resetWith_default⟩

/-! ### What a load installs (70_reset_and_hazards.md R282) -/

section

variable (m : Memory) (a : Nat) (vs : List Byte)

theorem Memory.read_writeList_getElem {k : Nat} (hk : k < vs.length) : (m.writeList a vs).read (a + k) = vs[k] := by
  rw [Memory.read_writeList, if_pos (Nat.le_add_right a k), Nat.add_sub_cancel_left, List.getD_eq_getElem _ _ hk]

theorem Memory.read_writeList_of_outside {b : Nat} (hb : ¬ (a ≤ b ∧ b < a + vs.length)) :
    (m.writeList a vs).read b = m.read b := by
  rw [Memory.read_writeList]
  split
  · exact List.getD_eq_default _ _ (by omega)
  · rfl

end

theorem load_of_fits {image : List Byte} (h : image.length ≤ 3584) (s : State) :
    load image s = .ok { s with mem := s.mem.writeList loadAddress image } :=
  if_pos h

theorem load_of_not_fits {image : List Byte} (h : 3584 < image.length) (s : State) :
    load image s = .error (.loadError image.length) :=
  if_neg h.not_ge

/-- Settles O55: the image is one run of bytes stored from 0x200. -/
theorem loadInstallsImage : Obligations.LoadInstallsImage := by
  refine fun image s => ⟨fun hfits => ?_, fun hlong => load_of_not_fits hlong s⟩
  refine ⟨_, load_of_fits hfits s, fun k hk => s.mem.read_writeList_getElem 0x200 image hk, rfl, ?_⟩
  exact { Frame.refl _ s with cells := fun a ha => s.mem.read_writeList_of_outside 0x200 image ha }

/-! ### The place of a load (70_reset_and_hazards.md R284) -/

section

variable {t : Transaction} {y z : System} {r : Reply}

theorem System.apply_phase_of_harmless (ht : t.Harmless) (h : System.apply t y = .ok (z, r)) : z.phase = y.phase := by
  cases t with
  | reset | load | step => exact ht.elim
  | tickTimers | frameBuffer =>
    cases h
    rfl
  | setKey index pressed =>
    obtain ⟨-, rfl, -⟩ := System.apply_setKey_ok h
    rfl

/-- A load, successful or not, and a step end the phase that a reset begins. -/
theorem System.apply_phase_ne_fresh (hreset : t ≠ .reset) (ht : ¬ t.Harmless) (h : System.apply t y = .ok (z, r)) :
    z.phase ≠ .fresh := by
  cases t with
  | reset => exact absurd rfl hreset
  | load image =>
    rcases System.apply_load_cases h with ⟨_, -, rfl, -⟩ | ⟨_, -, rfl, -⟩
    · exact nofun
    · exact nofun
  | step =>
    rcases System.apply_step_cases h with ⟨_, -, rfl, -⟩ | ⟨_, -, rfl, -⟩
    · exact nofun
    · exact nofun
  | tickTimers | setKey | frameBuffer => exact (ht trivial).elim

/-- Only a reset begins that phase. -/
theorem System.apply_keeps_phase_ne_fresh (hreset : t ≠ .reset) (h : System.apply t y = .ok (z, r))
    (hy : y.phase ≠ .fresh) : z.phase ≠ .fresh := by
  by_cases ht : t.Harmless
  · rwa [System.apply_phase_of_harmless ht h]
  · exact System.apply_phase_ne_fresh hreset ht h

end

section

variable {ts : List Transaction} {y z : System} {rs : List Reply}

theorem System.run_keeps_phase_ne_fresh (hts : .reset ∉ ts) (h : System.run ts y = .ok (z, rs)) (hy : y.phase ≠ .fresh) :
    z.phase ≠ .fresh :=
  System.run_keeps (P := fun u => u.phase ≠ .fresh)
    (fun _ ht _ _ _ happly => System.apply_keeps_phase_ne_fresh (ne_of_mem_of_not_mem ht hts) happly) h hy

/-- The first load or step of the run ends the phase, and nothing after it begins it again. -/
theorem System.run_phase_ne_fresh (hts : .reset ∉ ts) (hstart : ∃ t ∈ ts, ¬ t.Harmless)
    (h : System.run ts y = .ok (z, rs)) : z.phase ≠ .fresh := by
  induction ts generalizing y rs with
  | nil =>
    obtain ⟨_, hnil, -⟩ := hstart
    cases hnil
  | cons t ts ih =>
    obtain ⟨y', r, rs', happly, hrun, -⟩ := System.run_cons h
    obtain ⟨hreset, hts'⟩ := List.ne_and_not_mem_of_not_mem_cons hts
    rcases List.or_exists_of_exists_mem_cons hstart with ht | hlater
    · exact System.run_keeps_phase_ne_fresh hts' hrun (System.apply_phase_ne_fresh (Ne.symm hreset) ht happly)
    · exact ih hts' hlater hrun

end

theorem System.apply_load_of_not_fresh {y : System} (hy : y.phase ≠ .fresh) (image : List Byte) :
    System.apply (.load image) y = .error .loadOutOfPlace :=
  if_neg hy

/-- Settles O56: the phase is fresh exactly while only harmless transactions have followed the reset. -/
theorem loadOnlyOnceBeforeFirstStep : Obligations.LoadOnlyOnceBeforeFirstStep := by
  refine ⟨fun ts y z rs image hts hstart hrun => ?_, fun ts y z rs hts hrun => ?_,
    fun image y hy => ⟨fun s hload => ?_, fun f hload => ?_⟩⟩
  · have hbusy : ∃ t ∈ ts, ¬ t.Harmless := by
      rcases hstart with hstep | ⟨im, hload⟩
      · exact ⟨_, hstep, id⟩
      · exact ⟨_, hload, id⟩
    exact System.apply_load_of_not_fresh (System.run_phase_ne_fresh hts hbusy hrun) image
  · obtain ⟨y', r, rs', hreset, hrest, -⟩ := System.run_cons hrun
    cases hreset
    refine System.run_keeps (P := fun u => u.phase = .fresh) ?_ hrest rfl
    intro t ht u v r happly hu
    exact (System.apply_phase_of_harmless (hts t ht) happly).trans hu
  · simp only [System.apply, if_pos hy, hload]
  · simp only [System.apply, if_pos hy, hload]

end Sys2Proof.Machine
end
